-- ==== Sys2Proof/Word.lean ====
section
/-! DEFINITION. The word types: a scalar or command word of 32 bits, a byte of 8 bits, and the byte string a bignum
register holds (00_scope.md R10, R12 to R14). -/

namespace Sys2Proof

/-- A 32-bit scalar, command word or host transfer (R10, R14). -/
abbrev Word := BitVec 32

/-- A byte (R10). -/
abbrev Byte := BitVec 8

/-- A byte string, byte 0 first; byte 0 is the most significant (R13). -/
abbrev ByteString := List Byte

end Sys2Proof
end

