-- ==== Sys2Proof/Syntax.lean ====
section
/-! DEFINITION. The commands of CTBE1 as abstract syntax: one constructor per row of 30_encoding.md R306, with register
operands typed by the file they name (R303). -/

namespace Sys2Proof

/-- The number of a scalar register S0 to S15 (R101, R303). -/
structure SReg where
  idx : Fin 16
  deriving DecidableEq, Repr

/-- The number of a bignum register B0 to B15 (R104, R303). -/
structure BReg where
  idx : Fin 16
  deriving DecidableEq, Repr

/-- The condition codes of FTST (R305). -/
inductive Cond where
  | lt | eq | gt | le | ge | ne
  deriving DecidableEq, Repr

/-- The six command formats (R302). -/
inductive Format where
  | N | R1 | R2 | R3 | R4 | I
  deriving DecidableEq, Repr

/-- Why a word is illegal (R307 to R309). Each reason raises IllegalInstruction (R310). -/
inductive Illegal where
  /-- The opcode is not in R306 (R307). -/
  | unassignedOpcode
  /-- A reserved field is not zero (R308). -/
  | reservedField
  /-- FTST with a condition code of 6 or more (R309). -/
  | conditionCode
  /-- BDIVMOD or BXGCD with equal destinations (R309). -/
  | sameDestination
  deriving DecidableEq, Repr

/-- The 47 commands, in the order of R306; operands in the order f1, f2, f3, f4. -/
inductive Instr where
  | halt
  | lil (d : SReg) (imm : BitVec 16)
  | lih (d : SReg) (imm : BitVec 16)
  | sadd (d a b : SReg)
  | ssub (d a b : SReg)
  | sshl (d a b : SReg)
  | sshr (d a b : SReg)
  | scmp (d a b : SReg)
  | ssel (d a b : SReg)
  | sdiv (d a b : SReg)
  | smod (d a b : SReg)
  | ftst (a : SReg) (c : Cond)
  | fpars (a : SReg)
  | fparb (a : BReg)
  | bld (d : BReg) (a n : SReg)
  | bst (x : BReg) (a : SReg)
  | bmov (d x : BReg)
  | blen (d : SReg) (x : BReg)
  | sld (d a : SReg)
  | sst (x a : SReg)
  | brsz (d x : BReg) (n : SReg)
  | btrml (d x : BReg)
  | btrmr (d x : BReg)
  | bnorm (d x : BReg) (n : SReg)
  | bnormu (d x : BReg) (n : SReg)
  | bcmp (d : SReg) (a b : BReg)
  | beq (d : SReg) (a b : BReg)
  | bsel (d a b : BReg)
  | band (d a b : BReg)
  | bor (d a b : BReg)
  | bxor (d a b : BReg)
  | blsh1 (d : BReg)
  | brsh1 (d : BReg)
  | brsh1s (d : BReg)
  | bshl (d x c : BReg)
  | bshr (d x c : BReg)
  | badd (d a b : BReg)
  | bsub (d a b : BReg)
  | bmul (d a b : BReg)
  | bdivmod (q r a b : BReg)
  | bdiv (d a b : BReg)
  | bmod (d a b : BReg)
  | bpow (d a e : BReg) (n : SReg)
  | bmodpow (d a e m : BReg)
  | bgcd (d a b : BReg)
  | bxgcd (u g a b : BReg)
  | bmodinv (d x m : BReg)
  deriving DecidableEq, Repr

/-- A line of an assembler source that yields words: a command, the directive `.word v`, or the pseudo-instruction
`LI Sd, imm32` (R312, R313). -/
inductive AsmLine where
  | command (i : Instr)
  | word (v : Word)
  | li (d : SReg) (v : Word)
  deriving DecidableEq, Repr

end Sys2Proof
end

