-- ==== Sys2Proof/WellFormed.lean ====
section
/-! DEFINITION. Which commands are well formed. The types of Syntax rule out bad register numbers, immediates and
condition codes; what is left is the value constraint of 30_encoding.md R309 on the commands with two destinations. -/

namespace Sys2Proof

/-- A command the engine can be given as a legal word: BDIVMOD and BXGCD name two different destinations (R309, R19). -/
def Instr.wf : Instr → Bool
  | .bdivmod q r _ _ => decide (q ≠ r)
  | .bxgcd u g _ _ => decide (u ≠ g)
  | .halt | .lil .. | .lih .. | .sadd .. | .ssub .. | .sshl .. | .sshr .. | .scmp .. | .ssel .. | .sdiv .. | .smod ..
  | .ftst .. | .fpars .. | .fparb .. | .bld .. | .bst .. | .bmov .. | .blen .. | .sld .. | .sst .. | .brsz ..
  | .btrml .. | .btrmr .. | .bnorm .. | .bnormu .. | .bcmp .. | .beq .. | .bsel .. | .band .. | .bor .. | .bxor ..
  | .blsh1 .. | .brsh1 .. | .brsh1s .. | .bshl .. | .bshr .. | .badd .. | .bsub .. | .bmul .. | .bdiv .. | .bmod ..
  | .bpow .. | .bmodpow .. | .bgcd .. | .bmodinv .. => true

end Sys2Proof
end

