-- ==== Sys2Proof/Decode.lean ====
section
/-! DEFINITION. From a 32-bit command word to a command, total on every word (30_encoding.md R301 to R311), and back. -/

namespace Sys2Proof

/-! ## Fields (R301) -/

/-- op = w[31:24]. -/
def opField (w : Word) : BitVec 8 := w.extractLsb' 24 8
/-- f1 = w[23:20]. -/
def f1Field (w : Word) : BitVec 4 := w.extractLsb' 20 4
/-- f2 = w[19:16]. -/
def f2Field (w : Word) : BitVec 4 := w.extractLsb' 16 4
/-- f3 = w[15:12]. -/
def f3Field (w : Word) : BitVec 4 := w.extractLsb' 12 4
/-- f4 = w[11:8]. -/
def f4Field (w : Word) : BitVec 4 := w.extractLsb' 8 4
/-- imm16 = w[15:0]. -/
def immField (w : Word) : BitVec 16 := w.extractLsb' 0 16

/-- The mask of a format: a 1 in every bit that is fixed, as opcode or as reserved zero (R302). -/
def Format.mask : Format → Word
  | .N => 0xFFFFFFFF#32
  | .R1 => 0xFF0FFFFF#32
  | .R2 => 0xFF00FFFF#32
  | .R3 => 0xFF000FFF#32
  | .R4 => 0xFF0000FF#32
  | .I => 0xFF0F0000#32

/-- `(w & mask) == op << 24`: no reserved bit of the format is set (R302, R308). -/
def reservedClean (f : Format) (w : Word) : Bool := (w &&& f.mask) == (opField w).setWidth 32 <<< 24

/-- A field value read as a scalar register number (R303). -/
def toSReg (f : BitVec 4) : SReg := ⟨⟨f.toNat, f.isLt⟩⟩
/-- A field value read as a bignum register number (R303). -/
def toBReg (f : BitVec 4) : BReg := ⟨⟨f.toNat, f.isLt⟩⟩

/-- The condition a code names; codes 6 to 15 are reserved (R305). -/
def Cond.ofCode? (c : BitVec 4) : Option Cond :=
  match c.toNat with
  | 0 => some .lt
  | 1 => some .eq
  | 2 => some .gt
  | 3 => some .le
  | 4 => some .ge
  | 5 => some .ne
  | _ => none

/-! ## Decoder (R311) -/

/-- Accept a command if its word has no reserved bit set (R308). -/
def acceptClean (f : Format) (w : Word) (i : Instr) : Except Illegal Instr :=
  if reservedClean f w then .ok i else .error .reservedField

/-- Accept a command that also satisfies the value constraint of R309; reserved bits are checked first (R311). -/
def acceptWf (f : Format) (w : Word) (i : Instr) : Except Illegal Instr :=
  if reservedClean f w then (if i.wf then .ok i else .error .sameDestination) else .error .reservedField

/-- FTST: reserved bits first, then the condition code (R311). -/
def acceptFtst (w : Word) : Except Illegal Instr :=
  if reservedClean .R2 w then
    match Cond.ofCode? (f2Field w) with
    | some c => .ok (.ftst (toSReg (f1Field w)) c)
    | none => .error .conditionCode
  else .error .reservedField

/-- The decoder of R311: the row of R306 the opcode names, then the checks of R308 and R309. -/
def decode (w : Word) : Except Illegal Instr :=
  let s1 := toSReg (f1Field w)
  let s2 := toSReg (f2Field w)
  let s3 := toSReg (f3Field w)
  let s4 := toSReg (f4Field w)
  let b1 := toBReg (f1Field w)
  let b2 := toBReg (f2Field w)
  let b3 := toBReg (f3Field w)
  let b4 := toBReg (f4Field w)
  match (opField w).toNat with
  | 0x01 => acceptClean .N w .halt
  | 0x10 => acceptClean .I w (.lil s1 (immField w))
  | 0x11 => acceptClean .I w (.lih s1 (immField w))
  | 0x12 => acceptClean .R3 w (.sadd s1 s2 s3)
  | 0x13 => acceptClean .R3 w (.ssub s1 s2 s3)
  | 0x14 => acceptClean .R3 w (.sshl s1 s2 s3)
  | 0x15 => acceptClean .R3 w (.sshr s1 s2 s3)
  | 0x16 => acceptClean .R3 w (.scmp s1 s2 s3)
  | 0x17 => acceptClean .R3 w (.ssel s1 s2 s3)
  | 0x18 => acceptClean .R3 w (.sdiv s1 s2 s3)
  | 0x19 => acceptClean .R3 w (.smod s1 s2 s3)
  | 0x20 => acceptFtst w
  | 0x21 => acceptClean .R1 w (.fpars s1)
  | 0x22 => acceptClean .R1 w (.fparb b1)
  | 0x30 => acceptClean .R3 w (.bld b1 s2 s3)
  | 0x31 => acceptClean .R2 w (.bst b1 s2)
  | 0x32 => acceptClean .R2 w (.bmov b1 b2)
  | 0x33 => acceptClean .R2 w (.blen s1 b2)
  | 0x34 => acceptClean .R2 w (.sld s1 s2)
  | 0x35 => acceptClean .R2 w (.sst s1 s2)
  | 0x38 => acceptClean .R3 w (.brsz b1 b2 s3)
  | 0x39 => acceptClean .R2 w (.btrml b1 b2)
  | 0x3A => acceptClean .R2 w (.btrmr b1 b2)
  | 0x3B => acceptClean .R3 w (.bnorm b1 b2 s3)
  | 0x3C => acceptClean .R3 w (.bnormu b1 b2 s3)
  | 0x40 => acceptClean .R3 w (.bcmp s1 b2 b3)
  | 0x41 => acceptClean .R3 w (.beq s1 b2 b3)
  | 0x42 => acceptClean .R3 w (.bsel b1 b2 b3)
  | 0x50 => acceptClean .R3 w (.band b1 b2 b3)
  | 0x51 => acceptClean .R3 w (.bor b1 b2 b3)
  | 0x52 => acceptClean .R3 w (.bxor b1 b2 b3)
  | 0x53 => acceptClean .R1 w (.blsh1 b1)
  | 0x54 => acceptClean .R1 w (.brsh1 b1)
  | 0x55 => acceptClean .R1 w (.brsh1s b1)
  | 0x56 => acceptClean .R3 w (.bshl b1 b2 b3)
  | 0x57 => acceptClean .R3 w (.bshr b1 b2 b3)
  | 0x60 => acceptClean .R3 w (.badd b1 b2 b3)
  | 0x61 => acceptClean .R3 w (.bsub b1 b2 b3)
  | 0x62 => acceptClean .R3 w (.bmul b1 b2 b3)
  | 0x63 => acceptWf .R4 w (.bdivmod b1 b2 b3 b4)
  | 0x64 => acceptClean .R3 w (.bdiv b1 b2 b3)
  | 0x65 => acceptClean .R3 w (.bmod b1 b2 b3)
  | 0x70 => acceptClean .R4 w (.bpow b1 b2 b3 s4)
  | 0x71 => acceptClean .R4 w (.bmodpow b1 b2 b3 b4)
  | 0x78 => acceptClean .R3 w (.bgcd b1 b2 b3)
  | 0x79 => acceptWf .R4 w (.bxgcd b1 b2 b3 b4)
  | 0x7A => acceptClean .R3 w (.bmodinv b1 b2 b3)
  | _ => .error .unassignedOpcode

/-! ## Encoder (R301, R302, R306) -/

/-- The 4-bit field of a scalar register (R303). -/
def SReg.field (r : SReg) : BitVec 4 := BitVec.ofFin r.idx
/-- The 4-bit field of a bignum register (R303). -/
def BReg.field (r : BReg) : BitVec 4 := BitVec.ofFin r.idx

/-- The condition codes of R305. -/
def Cond.code : Cond → BitVec 4
  | .lt => 0
  | .eq => 1
  | .gt => 2
  | .le => 3
  | .ge => 4
  | .ne => 5

/-- The opcode column of R306. -/
def Instr.opcode : Instr → BitVec 8
  | .halt => 0x01
  | .lil .. => 0x10
  | .lih .. => 0x11
  | .sadd .. => 0x12
  | .ssub .. => 0x13
  | .sshl .. => 0x14
  | .sshr .. => 0x15
  | .scmp .. => 0x16
  | .ssel .. => 0x17
  | .sdiv .. => 0x18
  | .smod .. => 0x19
  | .ftst .. => 0x20
  | .fpars .. => 0x21
  | .fparb .. => 0x22
  | .bld .. => 0x30
  | .bst .. => 0x31
  | .bmov .. => 0x32
  | .blen .. => 0x33
  | .sld .. => 0x34
  | .sst .. => 0x35
  | .brsz .. => 0x38
  | .btrml .. => 0x39
  | .btrmr .. => 0x3A
  | .bnorm .. => 0x3B
  | .bnormu .. => 0x3C
  | .bcmp .. => 0x40
  | .beq .. => 0x41
  | .bsel .. => 0x42
  | .band .. => 0x50
  | .bor .. => 0x51
  | .bxor .. => 0x52
  | .blsh1 .. => 0x53
  | .brsh1 .. => 0x54
  | .brsh1s .. => 0x55
  | .bshl .. => 0x56
  | .bshr .. => 0x57
  | .badd .. => 0x60
  | .bsub .. => 0x61
  | .bmul .. => 0x62
  | .bdivmod .. => 0x63
  | .bdiv .. => 0x64
  | .bmod .. => 0x65
  | .bpow .. => 0x70
  | .bmodpow .. => 0x71
  | .bgcd .. => 0x78
  | .bxgcd .. => 0x79
  | .bmodinv .. => 0x7A

/-- The format column of R306. -/
def Instr.format : Instr → Format
  | .halt => .N
  | .lil .. | .lih .. => .I
  | .fpars .. | .fparb .. | .blsh1 .. | .brsh1 .. | .brsh1s .. => .R1
  | .ftst .. | .bst .. | .bmov .. | .blen .. | .sld .. | .sst .. | .btrml .. | .btrmr .. => .R2
  | .sadd .. | .ssub .. | .sshl .. | .sshr .. | .scmp .. | .ssel .. | .sdiv .. | .smod .. | .bld .. | .brsz ..
  | .bnorm .. | .bnormu .. | .bcmp .. | .beq .. | .bsel .. | .band .. | .bor .. | .bxor .. | .bshl .. | .bshr ..
  | .badd .. | .bsub .. | .bmul .. | .bdiv .. | .bmod .. | .bgcd .. | .bmodinv .. => .R3
  | .bdivmod .. | .bpow .. | .bmodpow .. | .bxgcd .. => .R4

/-- A word of a register format: op, f1, f2, f3, f4 and a zero z field (R301). -/
def fieldsWord (op : BitVec 8) (f1 f2 f3 f4 : BitVec 4) : Word := (op ++ f1 ++ f2 ++ f3 ++ f4 ++ 0#8).cast rfl

/-- A word of format I: op, f1, a zero f2 and the immediate (R301, R302). -/
def immWord (op : BitVec 8) (f1 : BitVec 4) (imm : BitVec 16) : Word := (op ++ f1 ++ 0#4 ++ imm).cast rfl

/-- The word of a command: its opcode and its operand fields in the order of R306, every reserved field zero. -/
def encode (i : Instr) : Word :=
  match i with
  | .halt => fieldsWord i.opcode 0 0 0 0
  | .lil d imm | .lih d imm => immWord i.opcode d.field imm
  | .sadd d a b | .ssub d a b | .sshl d a b | .sshr d a b | .scmp d a b | .ssel d a b | .sdiv d a b | .smod d a b =>
    fieldsWord i.opcode d.field a.field b.field 0
  | .ftst a c => fieldsWord i.opcode a.field c.code 0 0
  | .fpars a => fieldsWord i.opcode a.field 0 0 0
  | .fparb a => fieldsWord i.opcode a.field 0 0 0
  | .bld d a n => fieldsWord i.opcode d.field a.field n.field 0
  | .bst x a => fieldsWord i.opcode x.field a.field 0 0
  | .bmov d x => fieldsWord i.opcode d.field x.field 0 0
  | .blen d x => fieldsWord i.opcode d.field x.field 0 0
  | .sld d a => fieldsWord i.opcode d.field a.field 0 0
  | .sst x a => fieldsWord i.opcode x.field a.field 0 0
  | .brsz d x n | .bnorm d x n | .bnormu d x n => fieldsWord i.opcode d.field x.field n.field 0
  | .btrml d x | .btrmr d x => fieldsWord i.opcode d.field x.field 0 0
  | .bcmp d a b | .beq d a b => fieldsWord i.opcode d.field a.field b.field 0
  | .bsel d a b | .band d a b | .bor d a b | .bxor d a b | .bshl d a b | .bshr d a b | .badd d a b | .bsub d a b
  | .bmul d a b | .bdiv d a b | .bmod d a b | .bgcd d a b | .bmodinv d a b =>
    fieldsWord i.opcode d.field a.field b.field 0
  | .blsh1 d | .brsh1 d | .brsh1s d => fieldsWord i.opcode d.field 0 0 0
  | .bdivmod q r a b | .bxgcd q r a b | .bmodpow q r a b =>
    fieldsWord i.opcode q.field r.field a.field b.field
  | .bpow d a e n => fieldsWord i.opcode d.field a.field e.field n.field

/-! ## The host's door -/

/-- The command word the host names by its low nbits bits; a CTBE1 command is one word (R300), so bits past nbits are 0. -/
def tableWord (nbits w : Nat) : Word := BitVec.ofNat 32 (w % 2 ^ nbits)

/-- What the decoder reads from a table row's word. IMEM holds whole words, so no byte order enters (R201). -/
def decodeTableWord (nbits w : Nat) : Option Instr :=
  match decode (tableWord nbits w) with
  | .ok i => some i
  | .error _ => none

end Sys2Proof
end

