-- ==== Sys2Proof/Machine/Bytes.lean ====
section
/-! DEFINITION. Byte strings as numbers: val, enc and the byte-order helpers of 00_scope.md R13 and 20_memory.md R204. -/

namespace Sys2Proof.Machine

/-- `val(x)`: the unsigned big-endian number a byte string holds; 0 for the empty string (R13). -/
def val (x : ByteString) : Nat := x.foldl (fun acc b => acc * 256 + b.toNat) 0

/-- `enc(L, v)`: the L bytes of v modulo 2^(8L), most significant first; byte k is `floor(v / 2^(8*(L-1-k))) mod 256`
(R13). Lean's integer division by a positive number is the floor, so a negative v wraps. -/
def enc : Nat → Int → ByteString
  | 0, _ => []
  | l + 1, v => BitVec.ofInt 8 (v / ((2 ^ (8 * l) : Nat) : Int)) :: enc l v

/-- `zeros(n)`: n bytes of 0x00 (R13). -/
def zeros (n : Nat) : ByteString := List.replicate n 0#8

/-- The four bytes of a 32-bit value as they stand in memory, bits 31:24 at the lowest address (R204, R553, R213). -/
def wordBytes (v : Word) : ByteString := enc 4 v.toNat

/-- The 32-bit value four memory bytes make, the lowest address most significant (R204, R552, R213). -/
def bytesWord (x : ByteString) : Word := BitVec.ofNat 32 (val x)

/-- The sign bit of a byte string, bit 7 of byte 0; 0 for the empty string (R605, R608). -/
def signBit : ByteString → Bool
  | [] => false
  | b :: _ => b.msb

end Sys2Proof.Machine
end

