-- ==== Sys2Proof/Config.lean ====
section
/-! DEFINITION. What an implementation fixes (the three size parameters of 00_scope.md R7 to R9), the identification
constants of R2, and the free values of 93_implementation_defined.md U1 to U3, which have no body: no proof can see
what they are. -/

namespace Sys2Proof

/-- The three OPEN parameters (R7 to R9, P1 to P3). -/
structure Config where
  /-- BN_MAX_BYTES, the largest length of a bignum register in bytes (R7). -/
  bnMaxBytes : Nat
  /-- DMEM_BYTES, the size of data memory in bytes (R8). -/
  dmemBytes : Nat
  /-- IMEM_WORDS, the size of instruction memory in command words (R9). -/
  imemWords : Nat
  deriving DecidableEq, Repr

/-- The parameter ranges of R7, R8 and R9. -/
abbrev Config.valid (c : Config) : Prop :=
  (1 ≤ c.bnMaxBytes ∧ c.bnMaxBytes ≤ 65535) ∧
  (4 ≤ c.dmemBytes ∧ c.dmemBytes ≤ 1048576 ∧ c.dmemBytes % 4 = 0) ∧
  (1 ≤ c.imemWords ∧ c.imemWords ≤ 16384)

/-- Example configuration E0 (R11). DESIGN CHOICE: State.reset uses it, log 1. -/
def Config.e0 : Config := { bnMaxBytes := 256, dmemBytes := 4096, imemWords := 1024 }

/-- The ID register, ASCII "CTBE" (R2, R130). -/
def Config.idValue : Word := 0x43544245#32

/-- The VERSION register (R2, R130). -/
def Config.versionValue : Word := 0x00000001#32

/-- U1: the byte that DMEM holds at an address after the reset numbered by the first argument, until it is written.
A free value, log 2. -/
opaque Config.dmemAfterReset : Nat → Nat → Byte

/-- U1: the word that IMEM holds at an index after the reset numbered by the first argument, until it is written.
A free value, log 2. -/
opaque Config.imemAfterReset : Nat → Nat → Word

/-- U2: the value of the n-th host read where that read is of a window while BUSY = 1. A free value, log 5. -/
opaque Config.busyWindowRead : Nat → Word

/-- U3: the value of the n-th host read where that read is of PC while BUSY = 1. A free value, log 5. -/
opaque Config.busyPcRead : Nat → BitVec 16

end Sys2Proof
end

