-- ==== Sys2Proof/Machine/State.lean ====
section
/-! DEFINITION. Everything the spec gives the machine, as plain data (10_state.md, 20_memory.md), the exceptions of
60_exceptions.md R800, the events of the schedule (20_memory.md R215) and the state after reset (10_state.md R160). -/

namespace Sys2Proof.Machine

/-- Data memory: the bytes written since reset, in the canonical form of `Memory.wf` (R202). -/
abbrev Memory := List Host.Cell

/-- Instruction memory: the words written since reset, by word index, in the canonical form of `InstrMemory.wf` (R200). -/
abbrev InstrMemory := List (Nat × Word)

/-- The exceptions (R800). Each one is taken as a next state (R806). -/
inductive Exn where
  /-- Unequal lengths given to BCMP, BSEL, BAND, BOR or BXOR. -/
  | lengthMismatch
  /-- A zero divisor or modulus. -/
  | divisionByZero
  /-- BMODINV of operands whose gcd is not 1. -/
  | inverseNotFound
  /-- A word that decodes to no command (R802). -/
  | illegalInstruction
  /-- A result longer than BN_MAX_BYTES (R803). -/
  | capacityExceeded
  /-- A DMEM range out of bounds (R804). -/
  | dataAddressFault
  /-- A fetch at PC >= IMEM_WORDS (R801). -/
  | fetchFault
  deriving DecidableEq, Repr

/-- What acts next: the engine, the host with one transaction, or the platform with reset (R100, R215, R900). -/
inductive Event where
  /-- The engine performs one step if BUSY = 1; if it is idle nothing happens (R112, R850). -/
  | engine
  /-- The host reads the 32-bit word at a host address (R211). -/
  | hostRead (addr : Word)
  /-- The host writes a 32-bit word to a host address (R211). -/
  | hostWrite (addr value : Word)
  /-- The platform asserts reset (R900). -/
  | reset
  deriving DecidableEq, Repr

/-- The state of one CTBE instance. The last four fields are the model's own. -/
structure State where
  /-- CFG_BN, CFG_DMEM and CFG_IMEM: the parameters, read-only (R130, R136). -/
  cfg : Config
  /-- S0 to S15 (R101). -/
  sreg : Vector Word 16
  /-- B0 to B15; each byte string has its length as part of its value (R104). -/
  breg : Vector ByteString 16
  /-- F, the selection flag (R108). -/
  flag : Bool
  /-- PC, an IMEM word index (R111). -/
  pc : BitVec 16
  /-- CTRL.IRQ_EN (R131). -/
  irqEn : Bool
  /-- STATUS.BUSY (R132). -/
  busy : Bool
  /-- STATUS.DONE (R132). -/
  done : Bool
  /-- STATUS.ERR (R132). -/
  err : Bool
  /-- CAUSE.CODE (R134). -/
  cause : BitVec 4
  /-- IMEM: the words written since reset (R200). -/
  imem : InstrMemory
  /-- DMEM: the bytes written since reset (R202). -/
  dmem : Memory
  /-- Model's own: how many resets there have been; it selects the unspecified memory contents of U1, log 2. -/
  epoch : Nat
  /-- Model's own: how many host reads there have been; it selects the unspecified values of U2 and U3, log 5. -/
  draws : Nat
  /-- Model's own: the events still to come, oldest first; when empty the engine acts alone (R215, P4), log 3. -/
  schedule : List Event
  /-- Model's own: the values the host's reads returned, newest first, log 3. -/
  replies : List Word
  deriving DecidableEq, Repr

/-- The machine has no fault: every exceptional condition of the spec is an exception, which is taken (R806), and an
access out of DMEM's bounds is one of them (R804). So no step stops, and this type is empty. -/
inductive Fault where
  deriving DecidableEq, Repr

/-- Why a step has no meaning. -/
inductive Refusal where
  /-- Raised by `exec` alone, for a command the model gives no meaning; no arm of `exec` raises it. Safe: a refused
  step allows no claim about what the hardware does there. -/
  | notModelled (mnemonic : String)
  deriving DecidableEq, Repr

/-- What one step answers. -/
abbrev Result := Host.Outcome State Fault Refusal

/-- The machine right after reset in a configuration (R160): registers cleared, PC = 0, idle, IRQ masked, nothing written
to either memory. -/
def State.resetWith (c : Config) : State where
  cfg := c
  sreg := Vector.replicate 16 0#32
  breg := Vector.replicate 16 []
  flag := false
  pc := 0#16
  irqEn := false
  busy := false
  done := false
  err := false
  cause := 0#4
  imem := []
  dmem := []
  epoch := 0
  draws := 0
  schedule := []
  replies := []

/-- The machine right after reset, in configuration E0 (R11, R160). DESIGN CHOICE: the configuration, log 1. -/
def State.reset : State := State.resetWith Config.e0

end Sys2Proof.Machine
end

