-- ==== Sys2Proof/Machine/Ops.lean ====
section
/-! DEFINITION. The named operations over registers and memories, the completion of a command, taking an exception
(60_exceptions.md R806) and START (10_state.md R133), which is the only way on after one (R808). -/

namespace Sys2Proof.Machine

/-! ## Cells: a sorted list of index and value -/

/-- What is listed at an index. -/
def cellGet {α : Type} (k : Nat) : List (Nat × α) → Option α
  | [] => none
  | (k', v) :: m => if k = k' then some v else cellGet k m

/-- List a value at an index, keeping the indexes strictly rising. -/
def cellSet {α : Type} (k : Nat) (v : α) : List (Nat × α) → List (Nat × α)
  | [] => [(k, v)]
  | (k', v') :: m =>
    if k < k' then (k, v) :: (k', v') :: m
    else if k = k' then (k, v) :: m
    else (k', v') :: cellSet k v m

/-- The canonical form of data memory: addresses strictly rising. An unlisted address has no cell, so no cell can equal
what an unlisted address holds, log 2. -/
abbrev Memory.wf (m : Memory) : Prop := (m.map Prod.fst).Pairwise (· < ·)

/-- The canonical form of instruction memory: indexes strictly rising. -/
abbrev InstrMemory.wf (m : InstrMemory) : Prop := (m.map Prod.fst).Pairwise (· < ·)

/-- List the bytes of a string at consecutive addresses, byte 0 at the first. -/
def writeCells (a : Nat) : ByteString → Memory → Memory
  | [], m => m
  | b :: x, m => writeCells (a + 1) x (cellSet a b m)

/-! ## Registers (R15, R101, R104) -/

/-- `S[i]`. -/
def State.S (s : State) (r : SReg) : Word := s.sreg[r.idx]

/-- `S[i] <- v`. -/
def State.setS (s : State) (r : SReg) (v : Word) : State := { s with sreg := s.sreg.set r.idx v }

/-- `B[i]`. -/
def State.B (s : State) (r : BReg) : ByteString := s.breg[r.idx]

/-- `B[i] <- x`: the length and all bytes at once. -/
def State.setB (s : State) (r : BReg) (x : ByteString) : State := { s with breg := s.breg.set r.idx x }

/-- `F <- b`. -/
def State.setFlag (s : State) (b : Bool) : State := { s with flag := b }

/-! ## Memories (R16, R200, R202) -/

/-- DMEM[a]: the byte written last, or the unspecified byte it holds since reset (U1, log 2). -/
def State.dmemByte (s : State) (a : Nat) : Byte := (cellGet a s.dmem).getD (Config.dmemAfterReset s.epoch a)

/-- `MemRead(addr, n)` (R16). -/
def State.memRead (s : State) (addr n : Nat) : ByteString := (List.range n).map fun k => s.dmemByte (addr + k)

/-- `MemWrite(addr, len(x), x)`: byte k to address addr + k (R16). -/
def State.memWrite (s : State) (addr : Nat) (x : ByteString) : State := { s with dmem := writeCells addr x s.dmem }

/-- `IMem(i)`: the word written last, or the unspecified word it holds since reset (U1, log 2). -/
def State.imemWord (s : State) (i : Nat) : Word := (cellGet i s.imem).getD (Config.imemAfterReset s.epoch i)

/-- The host stores a command word at an index (R212). -/
def State.setImemWord (s : State) (i : Nat) (w : Word) : State := { s with imem := cellSet i w s.imem }

/-- The fetch of R112: the word at PC, whole and bit for bit; nothing at PC >= IMEM_WORDS (R201). -/
def State.fetch (s : State) : Option Word :=
  if s.pc.toNat < s.cfg.imemWords then some (s.imemWord s.pc.toNat) else none

/-! ## How a command ends -/

/-- A command other than HALT completes: PC advances by 1 (R112, R113). -/
def State.advance (s : State) : State := { s with pc := s.pc + 1 }

/-- The answer of a command that completes in the given state. -/
def complete (s : State) : Result := .next s.advance

/-- The code an exception puts in CAUSE (R800). -/
def Exn.code : Exn → BitVec 4
  | .lengthMismatch => 1
  | .divisionByZero => 2
  | .inverseNotFound => 3
  | .illegalInstruction => 4
  | .capacityExceeded => 5
  | .dataAddressFault => 6
  | .fetchFault => 7

/-- The state after exception e: CAUSE, ERR and BUSY, and nothing else; PC keeps the faulting index (R806). -/
def State.trapped (s : State) (e : Exn) : State := { s with cause := e.code, err := true, busy := false }

/-- `raise E`: the command writes nothing and the engine stops (R17, R806). -/
def raise (e : Exn) (s : State) : Result := .next (s.trapped e)

/-- START accepted: every register cleared, STATUS and CAUSE cleared, BUSY set; PC, IRQ_EN, IMEM and DMEM kept (R133,
R901). There is no return from an exception; this is how the host goes on after one (R808). -/
def State.startRun (s : State) : State :=
  { s with
    sreg := Vector.replicate 16 0#32, breg := Vector.replicate 16 [], flag := false,
    done := false, err := false, cause := 0#4, busy := true }

/-- Reset: every piece of the spec's state as R160 says, both memories with new unspecified contents (R900, U1). The
configuration is the machine's; the schedule and the replies belong to the outside and go on, log 12. -/
def State.powerOn (s : State) : State :=
  { State.resetWith s.cfg with
    epoch := s.epoch + 1, draws := s.draws, schedule := s.schedule, replies := s.replies }

end Sys2Proof.Machine
end

