-- ==== Sys2Proof/Machine/Operands.lean ====
section
/-! DEFINITION. The operand forms of CTBE1, all register direct (43_move_control.md section 1), the checks the rules make
on operands, and the destinations a command may write. Every source is read from the state before the command
(00_scope.md R19): each operation below takes the values already read. -/

namespace Sys2Proof.Machine

/-! ## Destinations -/

/-- Write one scalar register and complete. -/
def writeS (d : SReg) (v : Word) (s : State) : Result := complete (s.setS d v)

/-- Write one bignum register and complete. -/
def writeB (d : BReg) (x : ByteString) (s : State) : Result := complete (s.setB d x)

/-- Write two bignum registers, the first one first, and complete (R653, R703). -/
def writeBB (d : BReg) (x : ByteString) (d' : BReg) (x' : ByteString) (s : State) : Result :=
  complete ((s.setB d x).setB d' x')

/-- Write F and complete. -/
def writeF (b : Bool) (s : State) : Result := complete (s.setFlag b)

/-- Store a byte string to DMEM and complete. -/
def store (addr : Nat) (x : ByteString) (s : State) : Result := complete (s.memWrite addr x)

/-! ## Checks (R803 to R806) -/

/-- The engine's DMEM bound check on unbounded integers (R206). -/
def inDmem (s : State) (addr n : Nat) : Bool := decide (addr + n ≤ s.cfg.dmemBytes)

/-- DataAddressFault unless the range is in bounds (R804). -/
def requireDmem (addr n : Nat) (s : State) (k : Result) : Result :=
  if inDmem s addr n then k else raise .dataAddressFault s

/-- CapacityExceeded if the result length is over BN_MAX_BYTES (R803). -/
def requireCapacity (n : Nat) (s : State) (k : Result) : Result :=
  if n > s.cfg.bnMaxBytes then raise .capacityExceeded s else k

/-- LengthMismatch if the lengths differ (R805). -/
def requireSameLength (a b : ByteString) (s : State) (k : Result) : Result :=
  if a.length ≠ b.length then raise .lengthMismatch s else k

/-- DivisionByZero if the divisor or modulus is zero (R805). -/
def requireNonzero (v : Nat) (s : State) (k : Result) : Result :=
  if v = 0 then raise .divisionByZero s else k

end Sys2Proof.Machine
end

