-- ==== Sys2Proof/Machine/BignumArith.lean ====
section
/-! DEFINITION. Bignum add, subtract, multiply and divide (45_bignum_arith.md). Every value is unsigned and no carry,
borrow or overflow is reported (10_state.md R110). -/

namespace Sys2Proof.Machine

/-- The longer operand's length, the working length L of most commands here (R650, R653). -/
def longerLength (a b : ByteString) : Nat := max a.length b.length

/-- BADD: the sum modulo 2^(8L) (R650). -/
def execBadd (d a b : BReg) (s : State) : Result :=
  writeB d (enc (longerLength (s.B a) (s.B b)) ((val (s.B a) + val (s.B b) : Nat) : Int)) s

/-- BSUB: the difference modulo 2^(8L) (R651). -/
def execBsub (d a b : BReg) (s : State) : Result :=
  writeB d (enc (longerLength (s.B a) (s.B b)) ((val (s.B a) : Int) - (val (s.B b) : Int))) s

/-- BMUL: the exact product in twice the longer length; CapacityExceeded if that is over BN_MAX_BYTES (R652). -/
def execBmul (d a b : BReg) (s : State) : Result :=
  let len := 2 * longerLength (s.B a) (s.B b)
  requireCapacity len s (writeB d (enc len ((val (s.B a) * val (s.B b) : Nat) : Int)) s)

/-- BDIVMOD: quotient and remainder, the quotient written first (R653). -/
def execBdivmod (q r a b : BReg) (s : State) : Result :=
  let len := longerLength (s.B a) (s.B b)
  requireNonzero (val (s.B b)) s
    (writeBB q (enc len ((val (s.B a) / val (s.B b) : Nat) : Int)) r (enc len ((val (s.B a) % val (s.B b) : Nat) : Int)) s)

/-- BDIV: the quotient (R654). -/
def execBdiv (d a b : BReg) (s : State) : Result :=
  requireNonzero (val (s.B b)) s
    (writeB d (enc (longerLength (s.B a) (s.B b)) ((val (s.B a) / val (s.B b) : Nat) : Int)) s)

/-- BMOD: the remainder, at the longer operand's length (R655). -/
def execBmod (d a b : BReg) (s : State) : Result :=
  requireNonzero (val (s.B b)) s
    (writeB d (enc (longerLength (s.B a) (s.B b)) ((val (s.B a) % val (s.B b) : Nat) : Int)) s)

end Sys2Proof.Machine
end

