-- ==== Sys2Proof/Machine/BignumLogic.lean ====
section
/-! DEFINITION. Bitwise, shift and normalize commands (44_bignum_logic_shift.md). -/

namespace Sys2Proof.Machine

/-- `enc(L, val(x) * 2^n)`, which is zeros(L) whenever n >= 8L (R606); the power is not computed then, log 10. -/
def shiftLeft (x : ByteString) (n : Nat) : ByteString :=
  if n ≥ 8 * x.length then zeros x.length else enc x.length ((val x * 2 ^ n : Nat) : Int)

/-- `enc(L, val(x) / 2^n)`, which is zeros(L) whenever n >= 8L (R607); the power is not computed then, log 10. -/
def shiftRight (x : ByteString) (n : Nat) : ByteString :=
  if n ≥ 8 * x.length then zeros x.length else enc x.length ((val x / 2 ^ n : Nat) : Int)

/-- The signed one-bit right shift: the sign bit is carried in (R605). -/
def shiftRightSigned (x : ByteString) : ByteString :=
  if x.length = 0 then x
  else enc x.length ((val x / 2 + (if signBit x then 2 ^ (8 * x.length - 1) else 0) : Nat) : Int)

/-- Length change at the most significant end: fill bytes in front, or the n last bytes kept (R608, R609). -/
def resizeNumber (fill : Byte) (x : ByteString) (n : Nat) : ByteString :=
  if n ≥ x.length then List.replicate (n - x.length) fill ++ x else x.drop (x.length - n)

/-- BAND (R600). -/
def execBand (d a b : BReg) (s : State) : Result :=
  requireSameLength (s.B a) (s.B b) s (writeB d (List.zipWith (· &&& ·) (s.B a) (s.B b)) s)

/-- BOR (R601). -/
def execBor (d a b : BReg) (s : State) : Result :=
  requireSameLength (s.B a) (s.B b) s (writeB d (List.zipWith (· ||| ·) (s.B a) (s.B b)) s)

/-- BXOR (R602). -/
def execBxor (d a b : BReg) (s : State) : Result :=
  requireSameLength (s.B a) (s.B b) s (writeB d (List.zipWith (· ^^^ ·) (s.B a) (s.B b)) s)

/-- BLSH1, in place: the old most significant bit is discarded (R603). -/
def execBlsh1 (d : BReg) (s : State) : Result :=
  writeB d (enc (s.B d).length ((2 * val (s.B d) : Nat) : Int)) s

/-- BRSH1, in place: zero is carried in (R604). -/
def execBrsh1 (d : BReg) (s : State) : Result :=
  writeB d (enc (s.B d).length ((val (s.B d) / 2 : Nat) : Int)) s

/-- BRSH1S, in place: the sign bit is carried in (R605). -/
def execBrsh1s (d : BReg) (s : State) : Result := writeB d (shiftRightSigned (s.B d)) s

/-- BSHL: the count is the whole value of B[f3] (R606). -/
def execBshl (d x c : BReg) (s : State) : Result := writeB d (shiftLeft (s.B x) (val (s.B c))) s

/-- BSHR: logical; the count is the whole value of B[f3] (R607). -/
def execBshr (d x c : BReg) (s : State) : Result := writeB d (shiftRight (s.B x) (val (s.B c))) s

/-- BNORM: sign extension, or two's-complement truncation (R608). -/
def execBnorm (d x : BReg) (n : SReg) (s : State) : Result :=
  let len := (s.S n).toNat
  requireCapacity len s (writeB d (resizeNumber (if signBit (s.B x) then 0xFF#8 else 0x00#8) (s.B x) len) s)

/-- BNORMU: zero extension, or truncation (R609). -/
def execBnormu (d x : BReg) (n : SReg) (s : State) : Result :=
  let len := (s.S n).toNat
  requireCapacity len s (writeB d (resizeNumber 0x00#8 (s.B x) len) s)

end Sys2Proof.Machine
end

