-- ==== Sys2Proof/Machine/Flags.lean ====
section
/-! DEFINITION. The selection flag F, the only flag CTBE has (10_state.md R108 to R110): the conditions and parities that
produce it, the masks it selects with, and the scalar pattern of a comparison result (40_compare_select.md). -/

namespace Sys2Proof.Machine

/-- Whether condition c holds of a signed value (R305, R405). -/
def condHolds : Cond → Int → Bool
  | .lt, v => decide (v < 0)
  | .eq, v => decide (v = 0)
  | .gt, v => decide (v > 0)
  | .le, v => decide (v ≤ 0)
  | .ge, v => decide (v ≥ 0)
  | .ne, v => decide (v ≠ 0)

/-- Bit 0 of a scalar (R406). -/
def scalarParity (v : Word) : Bool := v.getLsbD 0

/-- `val(x) mod 2`, 0 for the empty string (R407). -/
def bignumParity (x : ByteString) : Bool := val x % 2 == 1

/-- A comparison result as a 32-bit pattern: -1, 0 or 1 (D25, R400, R401). -/
def compareResult (a b : Nat) : Word :=
  if a < b then 0xFFFFFFFF#32 else if a = b then 0x00000000#32 else 0x00000001#32

/-- The byte mask of F: "negating the flag" (R403). -/
def byteMask (f : Bool) : Byte := if f then 0xFF#8 else 0x00#8

/-- The scalar mask of F (R404). -/
def wordMask (f : Bool) : Word := if f then 0xFFFFFFFF#32 else 0x00000000#32

/-- The branchless bignum multiplexer, byte by byte (R403). -/
def selectBytes (f : Bool) (a b : ByteString) : ByteString :=
  List.zipWith (fun x y => y ^^^ ((x ^^^ y) &&& byteMask f)) a b

/-- The branchless scalar multiplexer (R404). -/
def selectWord (f : Bool) (a b : Word) : Word := b ^^^ ((a ^^^ b) &&& wordMask f)

end Sys2Proof.Machine
end

