-- ==== Sys2Proof/Machine/CompareSelect.lean ====
section
/-! DEFINITION. Comparators, multiplexers and flag production (40_compare_select.md). -/

namespace Sys2Proof.Machine

/-- SCMP: unsigned (R401). -/
def execScmp (d a b : SReg) (s : State) : Result := writeS d (compareResult (s.S a).toNat (s.S b).toNat) s

/-- SSEL: S[f2] when F = 1, S[f3] when F = 0 (R404). -/
def execSsel (d a b : SReg) (s : State) : Result := writeS d (selectWord s.flag (s.S a) (s.S b)) s

/-- FTST: F is whether the condition holds of the signed scalar (R405). -/
def execFtst (a : SReg) (c : Cond) (s : State) : Result := writeF (condHolds c (s.S a).toInt) s

/-- FPARS: F is bit 0 of the scalar (R406). -/
def execFpars (a : SReg) (s : State) : Result := writeF (scalarParity (s.S a)) s

/-- FPARB: F is bit 0 of the bignum (R407). -/
def execFparb (a : BReg) (s : State) : Result := writeF (bignumParity (s.B a)) s

/-- BCMP: numeric order of equal-length operands (R400). -/
def execBcmp (d : SReg) (a b : BReg) (s : State) : Result :=
  requireSameLength (s.B a) (s.B b) s (writeS d (compareResult (val (s.B a)) (val (s.B b))) s)

/-- BEQ: unequal lengths give 0; else whether the OR of all byte differences is zero (R402). -/
def execBeq (d : SReg) (a b : BReg) (s : State) : Result :=
  let acc := (List.zipWith (· ^^^ ·) (s.B a) (s.B b)).foldl (· ||| ·) 0#8
  writeS d (if (s.B a).length ≠ (s.B b).length then 0#32 else if acc = 0#8 then 1#32 else 0#32) s

/-- BSEL: B[f2] when F = 1, B[f3] when F = 0, for equal lengths (R403). -/
def execBsel (d a b : BReg) (s : State) : Result :=
  requireSameLength (s.B a) (s.B b) s (writeB d (selectBytes s.flag (s.B a) (s.B b)) s)

end Sys2Proof.Machine
end

