-- ==== Sys2Proof/Machine/Algorithms.lean ====
section
/-! DEFINITION. The spec's shared computations: the restoring dividers (42_scalar.md R506, 45_bignum_arith.md R657), the
double-and-add multiplier (R656), square-and-multiply (46_bignum_exp_gcd.md R705, R706) and the canonical Bezout
coefficient (R710). BPOW, BMODPOW, BXGCD and BMODINV run the last two. The dividers and the multiplier stand here as the
spec gives them, while SDIV, SMOD, BMUL, BDIVMOD, BDIV and BMOD answer the exact values their rules state (P5, log 9). -/

namespace Sys2Proof.Machine

/-- The rounds of R506 for bits i-1 down to 0: q and r are the quotient and remainder so far. -/
def sdivLoop (a b : Nat) : Nat → Nat → Nat → Nat × Nat
  | 0, q, r => (q, r)
  | i + 1, q, r =>
    let r' := 2 * r + a / 2 ^ i % 2
    let t := if r' ≥ b then 1 else 0
    sdivLoop a b i (q ||| t <<< i) (if t = 1 then r' - b else r')

/-- `sdivmod(a, b)` for 32-bit a and nonzero b: 32 rounds (R506). -/
def sdivmod (a b : Nat) : Nat × Nat := sdivLoop a b 32 0 0

/-- The rounds of R657 for bits i-1 down to 0. -/
def bdivLoop (a b : Nat) : Nat → Nat → Nat → Nat × Nat
  | 0, q, r => (q, r)
  | i + 1, q, r =>
    let r' := 2 * r + a / 2 ^ i % 2
    let t := if r' ≥ b then 1 else 0
    bdivLoop a b i (q + t * 2 ^ i) (if t = 1 then r' - b else r')

/-- `bdivmod(a, b)` for val(b) nonzero: 8L rounds, L the longer length (R657). -/
def bdivmod (a b : ByteString) : Nat × Nat := bdivLoop (val a) (val b) (8 * max a.length b.length) 0 0

/-- The rounds of R656 modulo m: the multiplicand doubles, the multiplier halves, the result accumulates. -/
def mulLoop (m : Nat) : Nat → Nat → Nat → Nat → Nat
  | 0, _, _, r => r
  | k + 1, a, b, r => mulLoop m k (2 * a % m) (b / 2) ((r + if b % 2 = 1 then a else 0) % m)

/-- The double-and-add product: 8L rounds modulo 2^(8L), L twice the longer length (R656). -/
def mulRounds (a b : ByteString) : Nat :=
  let l := 2 * max a.length b.length
  mulLoop (2 ^ (8 * l)) (8 * l) (val a) (val b) 0

/-- The rounds of R705: fold the result with the base on a 1 bit, square the base, halve the exponent. -/
def powLoop (m : Nat) : Nat → Nat → Nat → Nat → Nat
  | 0, r, _, _ => r
  | k + 1, r, x, e => powLoop m k (if e % 2 = 1 then r * x % m else r) (x * x % m) (e / 2)

/-- Square-and-multiply modulo m in a fixed number of rounds (R705, R706). -/
def powMod (rounds a e m : Nat) : Nat := powLoop m rounds (1 % m) (a % m) e

/-- The Euclidean steps that carry the coefficient of the first operand: r = u·a and r' = u'·a modulo the second operand.
Which steps reach the coefficient is not architectural (R707, P5). -/
def bezoutLoop : Nat → Nat → Nat → Int → Int → Int
  | 0, _, _, u, _ => u
  | k + 1, r, r', u, u' => if r' = 0 then u else bezoutLoop k r' (r % r') u' (u - (r / r' : Nat) * u')

/-- `canon_u(a, b)`: 0 or 1 when b = 0, else the u in [0, b/g) with u·a = g modulo b (R710). -/
def canonU (a b : Nat) : Nat :=
  if b = 0 then (if a = 0 then 0 else 1)
  else (bezoutLoop (b + 1) a b 1 0 % ((b / Nat.gcd a b : Nat) : Int)).toNat

end Sys2Proof.Machine
end

