-- ==== Sys2Proof/Machine/ExpGcd.lean ====
section
/-! DEFINITION. Exponentiation, gcd and modular inverse (46_bignum_exp_gcd.md). -/

namespace Sys2Proof.Machine

/-- BPOW: the power modulo 2^(8n), n = S[f4], by 8 * len(Be) rounds (R700, R706). -/
def execBpow (d a e : BReg) (n : SReg) (s : State) : Result :=
  let len := (s.S n).toNat
  requireCapacity len s
    (writeB d (enc len ((powMod (8 * (s.B e).length) (val (s.B a)) (val (s.B e)) (2 ^ (8 * len)) : Nat) : Int)) s)

/-- BMODPOW: the power modulo val(Bm), at Bm's length, by 8W rounds, W the longest of the three operands (R701, R705). -/
def execBmodpow (d a e m : BReg) (s : State) : Result :=
  let w := max (max (s.B a).length (s.B e).length) (s.B m).length
  requireNonzero (val (s.B m)) s
    (writeB d (enc (s.B m).length ((powMod (8 * w) (val (s.B a)) (val (s.B e)) (val (s.B m)) : Nat) : Int)) s)

/-- BGCD: the greatest common divisor, gcd(0, 0) = 0 (R702). -/
def execBgcd (d a b : BReg) (s : State) : Result :=
  writeB d (enc (longerLength (s.B a) (s.B b)) ((Nat.gcd (val (s.B a)) (val (s.B b)) : Nat) : Int)) s

/-- BXGCD: the canonical coefficient of the first operand, then the gcd (R703). -/
def execBxgcd (u g a b : BReg) (s : State) : Result :=
  let len := longerLength (s.B a) (s.B b)
  writeBB u (enc len ((canonU (val (s.B a)) (val (s.B b)) : Nat) : Int))
    g (enc len ((Nat.gcd (val (s.B a)) (val (s.B b)) : Nat) : Int)) s

/-- BMODINV: DivisionByZero for a zero modulus, then InverseNotFound if the gcd is not 1, else the inverse (R704). -/
def execBmodinv (d x m : BReg) (s : State) : Result :=
  requireNonzero (val (s.B m)) s
    (if Nat.gcd (val (s.B x)) (val (s.B m)) ≠ 1 then raise .inverseNotFound s
     else writeB d (enc (longerLength (s.B x) (s.B m)) ((canonU (val (s.B x)) (val (s.B m)) : Nat) : Int)) s)

end Sys2Proof.Machine
end

