-- ==== Sys2Proof/Machine/Move.lean ====
section
/-! DEFINITION. Loads, stores and register moves (43_move_control.md sections 1 and 2). -/

namespace Sys2Proof.Machine

/-- BLD: n = S[f3] bytes from address S[f2]; CapacityExceeded before DataAddressFault (R550). -/
def execBld (d : BReg) (a n : SReg) (s : State) : Result :=
  let addr := (s.S a).toNat
  let len := (s.S n).toNat
  requireCapacity len s (requireDmem addr len s (writeB d (s.memRead addr len) s))

/-- BST: all bytes of B[f1] to address S[f2] (R551). -/
def execBst (x : BReg) (a : SReg) (s : State) : Result :=
  let addr := (s.S a).toNat
  requireDmem addr (s.B x).length s (store addr (s.B x) s)

/-- SLD: four bytes at address S[f2], big-endian (R552). -/
def execSld (d a : SReg) (s : State) : Result :=
  let addr := (s.S a).toNat
  requireDmem addr 4 s (writeS d (bytesWord (s.memRead addr 4)) s)

/-- SST: the four bytes of S[f1] to address S[f2], big-endian (R553). -/
def execSst (x a : SReg) (s : State) : Result :=
  let addr := (s.S a).toNat
  requireDmem addr 4 s (store addr (wordBytes (s.S x)) s)

/-- BMOV: length and bytes (R554). -/
def execBmov (d x : BReg) (s : State) : Result := writeB d (s.B x) s

/-- BLEN: the length in bytes (R555). -/
def execBlen (d : SReg) (x : BReg) (s : State) : Result := writeS d (BitVec.ofNat 32 (s.B x).length) s

end Sys2Proof.Machine
end

