-- ==== Sys2Proof/Machine/ResizeTrim.lean ====
section
/-! DEFINITION. Resize and trim, which treat a register as a byte string (41_resize_trim.md, 90_conflicts.md C1, C3). -/

namespace Sys2Proof.Machine

/-- The first n bytes, with zero bytes after the last one if n is longer (R450). -/
def resizeBytes (x : ByteString) (n : Nat) : ByteString := x.take n ++ zeros (n - x.length)

/-- All leading zero bytes removed (R451). -/
def trimLeft (x : ByteString) : ByteString := x.dropWhile (· == 0#8)

/-- All trailing zero bytes removed (R452). -/
def trimRight (x : ByteString) : ByteString := (trimLeft x.reverse).reverse

/-- BRSZ (R450). -/
def execBrsz (d x : BReg) (n : SReg) (s : State) : Result :=
  let len := (s.S n).toNat
  requireCapacity len s (writeB d (resizeBytes (s.B x) len) s)

/-- BTRML (R451). -/
def execBtrml (d x : BReg) (s : State) : Result := writeB d (trimLeft (s.B x)) s

/-- BTRMR (R452). -/
def execBtrmr (d x : BReg) (s : State) : Result := writeB d (trimRight (s.B x)) s

end Sys2Proof.Machine
end

