-- ==== Sys2Proof/Machine/RunControl.lean ====
section
/-! DEFINITION. HALT, the only control command (43_move_control.md R560 to R563). -/

namespace Sys2Proof.Machine

/-- HALT: BUSY <- 0, DONE <- 1; PC keeps HALT's index (R562). -/
def execHalt (s : State) : Result := .next { s with busy := false, done := true }

end Sys2Proof.Machine
end

