-- ==== Sys2Proof/Machine/Scalar.lean ====
section
/-! DEFINITION. Scalar commands and scalar division (42_scalar.md). Every result is reduced to 32 bits, which is what
BitVec arithmetic does (R14). -/

namespace Sys2Proof.Machine

/-- LIL: `zext_32(imm16)` (R500). -/
def execLil (d : SReg) (imm : BitVec 16) (s : State) : Result := writeS d (imm.setWidth 32) s

/-- LIH: the immediate in bits 31:16, bits 15:0 kept (R501). -/
def execLih (d : SReg) (imm : BitVec 16) (s : State) : Result :=
  writeS d ((imm.setWidth 32 <<< 16) ||| (s.S d &&& 0x0000FFFF#32)) s

/-- SADD: the sum modulo 2^32 (R502). -/
def execSadd (d a b : SReg) (s : State) : Result := writeS d (s.S a + s.S b) s

/-- SSUB: the difference modulo 2^32 (R503). -/
def execSsub (d a b : SReg) (s : State) : Result := writeS d (s.S a - s.S b) s

/-- SSHL: the count is all 32 bits; 32 or more gives 0 (R504). -/
def execSshl (d a b : SReg) (s : State) : Result :=
  writeS d (if (s.S b).toNat ≥ 32 then 0#32 else s.S a <<< (s.S b).toNat) s

/-- SSHR: logical; the count is all 32 bits; 32 or more gives 0 (R505). -/
def execSshr (d a b : SReg) (s : State) : Result :=
  writeS d (if (s.S b).toNat ≥ 32 then 0#32 else s.S a >>> (s.S b).toNat) s

/-- SDIV: the unsigned quotient; DivisionByZero if the divisor is 0 (R506, R507). -/
def execSdiv (d a b : SReg) (s : State) : Result :=
  requireNonzero (s.S b).toNat s (writeS d (BitVec.ofNat 32 ((s.S a).toNat / (s.S b).toNat)) s)

/-- SMOD: the unsigned remainder; DivisionByZero if the divisor is 0 (R506, R508). -/
def execSmod (d a b : SReg) (s : State) : Result :=
  requireNonzero (s.S b).toNat s (writeS d (BitVec.ofNat 32 ((s.S a).toNat % (s.S b).toNat)) s)

end Sys2Proof.Machine
end

