-- ==== Sys2Proof/Machine/Dispatch.lean ====
section
/-! DEFINITION. From a command to its meaning: one arm per constructor of Instr, in the order of 30_encoding.md R306. -/

namespace Sys2Proof.Machine

def exec (i : Instr) (s : State) : Host.Outcome State Fault Refusal :=
  match i with
  | .halt => Sys2Proof.Machine.execHalt s
  | .lil d imm => Sys2Proof.Machine.execLil d imm s
  | .lih d imm => Sys2Proof.Machine.execLih d imm s
  | .sadd d a b => Sys2Proof.Machine.execSadd d a b s
  | .ssub d a b => Sys2Proof.Machine.execSsub d a b s
  | .sshl d a b => Sys2Proof.Machine.execSshl d a b s
  | .sshr d a b => Sys2Proof.Machine.execSshr d a b s
  | .scmp d a b => Sys2Proof.Machine.execScmp d a b s
  | .ssel d a b => Sys2Proof.Machine.execSsel d a b s
  | .sdiv d a b => Sys2Proof.Machine.execSdiv d a b s
  | .smod d a b => Sys2Proof.Machine.execSmod d a b s
  | .ftst a c => Sys2Proof.Machine.execFtst a c s
  | .fpars a => Sys2Proof.Machine.execFpars a s
  | .fparb a => Sys2Proof.Machine.execFparb a s
  | .bld d a n => Sys2Proof.Machine.execBld d a n s
  | .bst x a => Sys2Proof.Machine.execBst x a s
  | .bmov d x => Sys2Proof.Machine.execBmov d x s
  | .blen d x => Sys2Proof.Machine.execBlen d x s
  | .sld d a => Sys2Proof.Machine.execSld d a s
  | .sst x a => Sys2Proof.Machine.execSst x a s
  | .brsz d x n => Sys2Proof.Machine.execBrsz d x n s
  | .btrml d x => Sys2Proof.Machine.execBtrml d x s
  | .btrmr d x => Sys2Proof.Machine.execBtrmr d x s
  | .bnorm d x n => Sys2Proof.Machine.execBnorm d x n s
  | .bnormu d x n => Sys2Proof.Machine.execBnormu d x n s
  | .bcmp d a b => Sys2Proof.Machine.execBcmp d a b s
  | .beq d a b => Sys2Proof.Machine.execBeq d a b s
  | .bsel d a b => Sys2Proof.Machine.execBsel d a b s
  | .band d a b => Sys2Proof.Machine.execBand d a b s
  | .bor d a b => Sys2Proof.Machine.execBor d a b s
  | .bxor d a b => Sys2Proof.Machine.execBxor d a b s
  | .blsh1 d => Sys2Proof.Machine.execBlsh1 d s
  | .brsh1 d => Sys2Proof.Machine.execBrsh1 d s
  | .brsh1s d => Sys2Proof.Machine.execBrsh1s d s
  | .bshl d x c => Sys2Proof.Machine.execBshl d x c s
  | .bshr d x c => Sys2Proof.Machine.execBshr d x c s
  | .badd d a b => Sys2Proof.Machine.execBadd d a b s
  | .bsub d a b => Sys2Proof.Machine.execBsub d a b s
  | .bmul d a b => Sys2Proof.Machine.execBmul d a b s
  | .bdivmod q r a b => Sys2Proof.Machine.execBdivmod q r a b s
  | .bdiv d a b => Sys2Proof.Machine.execBdiv d a b s
  | .bmod d a b => Sys2Proof.Machine.execBmod d a b s
  | .bpow d a e n => Sys2Proof.Machine.execBpow d a e n s
  | .bmodpow d a e m => Sys2Proof.Machine.execBmodpow d a e m s
  | .bgcd d a b => Sys2Proof.Machine.execBgcd d a b s
  | .bxgcd u g a b => Sys2Proof.Machine.execBxgcd u g a b s
  | .bmodinv d x m => Sys2Proof.Machine.execBmodinv d x m s

end Sys2Proof.Machine
end

