-- ==== Sys2Proof/Machine/HostPort.lean ====
section
/-! DEFINITION. The host port: the address map, the register block, the two windows and the IRQ output (10_state.md R130
to R138, 20_memory.md R210 to R214, 60_exceptions.md R820). -/

namespace Sys2Proof.Machine

/-- What a host address names (R210). -/
inductive HostTarget where
  /-- The register block, by byte offset (R130). -/
  | register (offset : Nat)
  /-- The IMEM window, by word index (R212). -/
  | imem (index : Nat)
  /-- The DMEM window, by the byte address of the word (R213). -/
  | dmem (addr : Nat)
  /-- Every other address (R210). -/
  | reserved
  deriving DecidableEq, Repr

/-- The address map of R210, with address bits 1:0 ignored (R211). -/
def hostTarget (addr : Word) : HostTarget :=
  let a := addr.toNat / 4 * 4
  if a < 0x10000 then .register a
  else if a < 0x20000 then .imem ((a - 0x10000) / 4)
  else if 0x100000 ≤ a ∧ a < 0x200000 then .dmem (a - 0x100000)
  else .reserved

/-- CTRL as the host reads it: START reads 0, IRQ_EN is bit 1 (R131). -/
def ctrlWord (s : State) : Word := if s.irqEn then 0x2#32 else 0x0#32

/-- STATUS as the host reads it: BUSY, DONE and ERR in bits 0, 1 and 2 (R132). -/
def statusWord (s : State) : Word :=
  (if s.busy then 0x1#32 else 0x0#32) ||| (if s.done then 0x2#32 else 0x0#32) ||| (if s.err then 0x4#32 else 0x0#32)

/-- The IRQ output: a level, `IRQ_EN AND (DONE OR ERR)` (R820, R146). -/
def irq (s : State) : Bool := s.irqEn && (s.done || s.err)

/-- A read of the register block (R130 to R137); PC reads an unspecified value while BUSY = 1 (R135, U3, log 5). -/
def registerRead (s : State) (offset : Nat) : Word :=
  match offset with
  | 0x000 => Config.idValue
  | 0x004 => Config.versionValue
  | 0x008 => ctrlWord s
  | 0x00C => statusWord s
  | 0x010 => s.cause.setWidth 32
  | 0x014 => (if s.busy then Config.busyPcRead s.draws else s.pc).setWidth 32
  | 0x018 => BitVec.ofNat 32 s.cfg.bnMaxBytes
  | 0x01C => BitVec.ofNat 32 s.cfg.dmemBytes
  | 0x020 => BitVec.ofNat 32 s.cfg.imemWords
  | _ => 0x0#32

/-- The value a host read returns. A window read while BUSY = 1 returns an unspecified value, at any offset (R214, U2,
log 5, log 6); past the end of a memory it returns 0 (R212, R213). -/
def hostReadValue (s : State) (addr : Word) : Word :=
  match hostTarget addr with
  | .register offset => registerRead s offset
  | .imem i =>
    if s.busy then Config.busyWindowRead s.draws else if i < s.cfg.imemWords then s.imemWord i else 0x0#32
  | .dmem a =>
    if s.busy then Config.busyWindowRead s.draws
    else if a < s.cfg.dmemBytes then bytesWord (s.memRead a 4) else 0x0#32
  | .reserved => 0x0#32

/-- A host read: its value is recorded; no state of the machine changes (R207, R214). -/
def hostRead (addr : Word) (s : State) : State :=
  { s with draws := s.draws + 1, replies := hostReadValue s addr :: s.replies }

/-- A write of CTRL: IRQ_EN first, then START if bit 0 is 1 and no run is in progress (R131, R133, R906). -/
def ctrlWrite (v : Word) (s : State) : State :=
  let s' := { s with irqEn := v.getLsbD 1 }
  if v.getLsbD 0 && !s.busy then s'.startRun else s'

/-- A write of STATUS: a 1 clears DONE (bit 1) or ERR (bit 2), a 0 leaves it (R132). -/
def statusWrite (v : Word) (s : State) : State :=
  { s with done := s.done && !v.getLsbD 1, err := s.err && !v.getLsbD 2 }

/-- A write of the PC register: bits 15:0, only while idle (R135). -/
def pcWrite (v : Word) (s : State) : State := if s.busy then s else { s with pc := v.setWidth 16 }

/-- A write to the register block; every other offset ignores it (R136, R137). -/
def registerWrite (offset : Nat) (v : Word) (s : State) : State :=
  match offset with
  | 0x008 => ctrlWrite v s
  | 0x00C => statusWrite v s
  | 0x014 => pcWrite v s
  | _ => s

/-- A host write. Window writes are dropped while BUSY = 1 (R214) and past the end of a memory (R212, R213). -/
def hostWrite (addr v : Word) (s : State) : State :=
  match hostTarget addr with
  | .register offset => registerWrite offset v s
  | .imem i => if !s.busy && decide (i < s.cfg.imemWords) then s.setImemWord i v else s
  | .dmem a => if !s.busy && decide (a < s.cfg.dmemBytes) then s.memWrite a (wordBytes v) else s
  | .reserved => s

end Sys2Proof.Machine
end

