-- ==== Sys2Proof/Machine/Engine.lean ====
section
/-! DEFINITION. The engine step (10_state.md R112) and one event of the schedule (20_memory.md R215). -/

namespace Sys2Proof.Machine

/-- The engine step: fetch, decode, execute; FetchFault and IllegalInstruction are taken here (R112, R801, R802). -/
def engineStep (s : State) : Result :=
  match s.fetch with
  | none => raise .fetchFault s
  | some w =>
    match decode w with
    | .error _ => raise .illegalInstruction s
    | .ok i => exec i s

/-- The engine's turn: one step while BUSY = 1; an idle engine leaves every state as it is (R100, R850). -/
def engineTurn (s : State) : Result := if s.busy then engineStep s else .next s

/-- One event: the engine's turn, one host transaction, or reset (R215, R900). -/
def runEvent (e : Event) (s : State) : Result :=
  match e with
  | .engine => engineTurn s
  | .hostRead addr => .next (hostRead addr s)
  | .hostWrite addr v => .next (hostWrite addr v s)
  | .reset => .next s.powerOn

/-- The next event of the schedule; with none left the engine acts alone (R215, log 3). -/
def runSchedule (s : State) : Result :=
  match s.schedule with
  | [] => engineTurn s
  | e :: es => runEvent e { s with schedule := es }

/-- A state in which the engine's next step runs the given word: the word at PC (at index 0 if PC is outside IMEM), a
run in progress with the status START leaves, and the engine next in the schedule, log 7. -/
def placeWord (s : State) (w : Word) : State :=
  let pc : BitVec 16 := if s.pc.toNat < s.cfg.imemWords then s.pc else 0#16
  let es := match s.schedule with
    | [] => []
    | e :: es => .engine :: e :: es
  { s.setImemWord pc.toNat w with
    pc := pc, busy := true, done := false, err := false, cause := 0#4, schedule := es }

end Sys2Proof.Machine
end

