-- ==== Sys2Proof/Machine/Step.lean ====
section
/-! DEFINITION. The step of the machine and the host's door to it. -/

namespace Sys2Proof.Machine

/-- One step: the next event of the schedule, or the engine's turn (R112, R215). -/
def step (s : State) : Host.Outcome State Fault Refusal := runSchedule s

/-- The state in which the very next step fetches and runs the command word w. -/
def State.withFetchWord (s : State) (nbits w : Nat) : State := placeWord s (tableWord nbits w)

end Sys2Proof.Machine
end

