-- ==== Sys2Proof/Machine/Assembler.lean ====
section
/-! DEFINITION. The assembler of CTBE1: the line syntax of 30_encoding.md R312 and the pseudo-instruction LI of R313. It
turns text into the command words a host writes to IMEM and is no part of the machine's state. -/

namespace Sys2Proof.Machine

/-! ## Words -/

/-- The words a line places in IMEM; LI always expands to LIL then LIH (R312, R313). -/
def asmWords : AsmLine → List Word
  | .command i => [encode i]
  | .word v => [v]
  | .li d v => [encode (.lil d (v.extractLsb' 0 16)), encode (.lih d (v.extractLsb' 16 16))]

/-- The words of a program, line after line. -/
def assemble (p : List AsmLine) : List Word := p.flatMap asmWords

/-! ## Text (R312) -/

/-- A decimal digit. -/
def decDigit (c : Char) : Option Nat := if '0' ≤ c ∧ c ≤ '9' then some (c.toNat - '0'.toNat) else none

/-- A hexadecimal digit of either case. -/
def hexDigit (c : Char) : Option Nat :=
  if 'a' ≤ c ∧ c ≤ 'f' then some (c.toNat - 'a'.toNat + 10)
  else if 'A' ≤ c ∧ c ≤ 'F' then some (c.toNat - 'A'.toNat + 10)
  else decDigit c

/-- The digits of a literal in a base, most significant first, after the value so far. -/
def readDigits (base : Nat) (digit : Char → Option Nat) : Nat → List Char → Option Nat
  | n, [] => some n
  | n, c :: cs => do readDigits base digit (n * base + (← digit c)) cs

/-- A decimal literal, or a hexadecimal literal with the prefix 0x (R312). -/
def readNumber : List Char → Option Nat
  | [] => none
  | '0' :: 'x' :: c :: cs => readDigits 16 hexDigit 0 (c :: cs)
  | c :: cs => readDigits 10 decDigit 0 (c :: cs)

/-- A literal in the range of n bits. -/
def readImm (n : Nat) (cs : List Char) : Option (BitVec n) := do
  let v ← readNumber cs
  if v < 2 ^ n then some (BitVec.ofNat n v) else none

/-- A register number 0 to 15 as the register names spell it, with no leading zero. -/
def readRegNumber : List Char → Option (Fin 16)
  | [c] => do
    let v ← decDigit c
    if h : v < 16 then some ⟨v, h⟩ else none
  | ['1', c] => do
    let v ← decDigit c
    if h : 10 + v < 16 then some ⟨10 + v, h⟩ else none
  | _ => none

/-- S0 to S15, in either case (R312). -/
def readS : List Char → Option SReg
  | c :: cs => if c.toUpper = 'S' then (readRegNumber cs).map SReg.mk else none
  | [] => none

/-- B0 to B15, in either case (R312). -/
def readB : List Char → Option BReg
  | c :: cs => if c.toUpper = 'B' then (readRegNumber cs).map BReg.mk else none
  | [] => none

/-- A condition code by its name (R305, R312). -/
def readCond (cs : List Char) : Option Cond :=
  match String.ofList cs with
  | "LT" => some .lt
  | "EQ" => some .eq
  | "GT" => some .gt
  | "LE" => some .le
  | "GE" => some .ge
  | "NE" => some .ne
  | _ => none

/-- A space or a tabulator. -/
def isBlank (c : Char) : Bool := c == ' ' || c == '\t'

/-- Without blanks at either end. -/
def trimBlanks (cs : List Char) : List Char := ((cs.dropWhile isBlank).reverse.dropWhile isBlank).reverse

/-- The pieces between commas. -/
def splitCommas : List Char → List (List Char)
  | [] => [[]]
  | ',' :: cs => [] :: splitCommas cs
  | c :: cs =>
    match splitCommas cs with
    | [] => [[c]]
    | p :: ps => (c :: p) :: ps

/-- The operands after the mnemonic, none if there is no text. -/
def readOperands (cs : List Char) : List (List Char) :=
  if trimBlanks cs = [] then [] else (splitCommas cs).map trimBlanks

/-- A line's mnemonic and operands to the line, in the operand order of R306; the mnemonic stands in capitals. -/
def readCommand (m : String) (ops : List (List Char)) : Option AsmLine :=
  match m, ops with
  | "HALT", [] => some (.command .halt)
  | "LIL", [x, y] => do return .command (.lil (← readS x) (← readImm 16 y))
  | "LIH", [x, y] => do return .command (.lih (← readS x) (← readImm 16 y))
  | "SADD", [x, y, z] => do return .command (.sadd (← readS x) (← readS y) (← readS z))
  | "SSUB", [x, y, z] => do return .command (.ssub (← readS x) (← readS y) (← readS z))
  | "SSHL", [x, y, z] => do return .command (.sshl (← readS x) (← readS y) (← readS z))
  | "SSHR", [x, y, z] => do return .command (.sshr (← readS x) (← readS y) (← readS z))
  | "SCMP", [x, y, z] => do return .command (.scmp (← readS x) (← readS y) (← readS z))
  | "SSEL", [x, y, z] => do return .command (.ssel (← readS x) (← readS y) (← readS z))
  | "SDIV", [x, y, z] => do return .command (.sdiv (← readS x) (← readS y) (← readS z))
  | "SMOD", [x, y, z] => do return .command (.smod (← readS x) (← readS y) (← readS z))
  | "FTST", [x, y] => do return .command (.ftst (← readS x) (← readCond y))
  | "FPARS", [x] => do return .command (.fpars (← readS x))
  | "FPARB", [x] => do return .command (.fparb (← readB x))
  | "BLD", [x, y, z] => do return .command (.bld (← readB x) (← readS y) (← readS z))
  | "BST", [x, y] => do return .command (.bst (← readB x) (← readS y))
  | "BMOV", [x, y] => do return .command (.bmov (← readB x) (← readB y))
  | "BLEN", [x, y] => do return .command (.blen (← readS x) (← readB y))
  | "SLD", [x, y] => do return .command (.sld (← readS x) (← readS y))
  | "SST", [x, y] => do return .command (.sst (← readS x) (← readS y))
  | "BRSZ", [x, y, z] => do return .command (.brsz (← readB x) (← readB y) (← readS z))
  | "BTRML", [x, y] => do return .command (.btrml (← readB x) (← readB y))
  | "BTRMR", [x, y] => do return .command (.btrmr (← readB x) (← readB y))
  | "BNORM", [x, y, z] => do return .command (.bnorm (← readB x) (← readB y) (← readS z))
  | "BNORMU", [x, y, z] => do return .command (.bnormu (← readB x) (← readB y) (← readS z))
  | "BCMP", [x, y, z] => do return .command (.bcmp (← readS x) (← readB y) (← readB z))
  | "BEQ", [x, y, z] => do return .command (.beq (← readS x) (← readB y) (← readB z))
  | "BSEL", [x, y, z] => do return .command (.bsel (← readB x) (← readB y) (← readB z))
  | "BAND", [x, y, z] => do return .command (.band (← readB x) (← readB y) (← readB z))
  | "BOR", [x, y, z] => do return .command (.bor (← readB x) (← readB y) (← readB z))
  | "BXOR", [x, y, z] => do return .command (.bxor (← readB x) (← readB y) (← readB z))
  | "BLSH1", [x] => do return .command (.blsh1 (← readB x))
  | "BRSH1", [x] => do return .command (.brsh1 (← readB x))
  | "BRSH1S", [x] => do return .command (.brsh1s (← readB x))
  | "BSHL", [x, y, z] => do return .command (.bshl (← readB x) (← readB y) (← readB z))
  | "BSHR", [x, y, z] => do return .command (.bshr (← readB x) (← readB y) (← readB z))
  | "BADD", [x, y, z] => do return .command (.badd (← readB x) (← readB y) (← readB z))
  | "BSUB", [x, y, z] => do return .command (.bsub (← readB x) (← readB y) (← readB z))
  | "BMUL", [x, y, z] => do return .command (.bmul (← readB x) (← readB y) (← readB z))
  | "BDIVMOD", [x, y, z, w] => do return .command (.bdivmod (← readB x) (← readB y) (← readB z) (← readB w))
  | "BDIV", [x, y, z] => do return .command (.bdiv (← readB x) (← readB y) (← readB z))
  | "BMOD", [x, y, z] => do return .command (.bmod (← readB x) (← readB y) (← readB z))
  | "BPOW", [x, y, z, w] => do return .command (.bpow (← readB x) (← readB y) (← readB z) (← readS w))
  | "BMODPOW", [x, y, z, w] => do return .command (.bmodpow (← readB x) (← readB y) (← readB z) (← readB w))
  | "BGCD", [x, y, z] => do return .command (.bgcd (← readB x) (← readB y) (← readB z))
  | "BXGCD", [x, y, z, w] => do return .command (.bxgcd (← readB x) (← readB y) (← readB z) (← readB w))
  | "BMODINV", [x, y, z] => do return .command (.bmodinv (← readB x) (← readB y) (← readB z))
  | "LI", [x, y] => do return .li (← readS x) (← readImm 32 y)
  | _, _ => none

/-- One line of source: nothing for a blank line or a comment; `none` if the text is no line of R312. -/
def parseLine (line : String) : Option (List AsmLine) :=
  let cs := trimBlanks (line.toList.takeWhile (· ≠ ';'))
  let m := cs.takeWhile (fun c => !isBlank c)
  let rest := cs.drop m.length
  if cs = [] then some []
  else if m = ".word".toList then do return [.word (← readImm 32 (trimBlanks rest))]
  else do return [← readCommand (String.ofList (m.map Char.toUpper)) (readOperands rest)]

/-- A program's words from its lines, if every line is one of R312. -/
def assembleText (lines : List String) : Option (List Word) := do
  let parsed ← lines.mapM parseLine
  return assemble parsed.flatten

end Sys2Proof.Machine
end

