-- ==== Sys2Proof/Safety.lean ====
section
/-! DEFINITION. What claims about the machine are stated in: the invariant every step keeps, what each kind of command
writes and leaves unchanged, and the per-command tables of 10_state.md R102, R106, R109 and 60_exceptions.md R811. -/

namespace Sys2Proof.Machine

/-! ## The invariant -/

/-- What holds in every state the machine can reach: the parameter ranges (R7 to R9), register lengths (R105), memories in
canonical form inside their sizes (R200, R202), and the status combinations of R132, R134 and R800 (U10, U11). -/
structure Inv (s : State) : Prop where
  cfgValid : s.cfg.valid
  lengths : ∀ r : BReg, (s.B r).length ≤ s.cfg.bnMaxBytes
  imemForm : InstrMemory.wf s.imem
  imemBound : ∀ c ∈ s.imem, c.1 < s.cfg.imemWords
  dmemForm : Memory.wf s.dmem
  dmemBound : ∀ c ∈ s.dmem, c.1 < s.cfg.dmemBytes
  notDoneAndErr : ¬ (s.done = true ∧ s.err = true)
  busyMeansClear : s.busy = true → s.done = false ∧ s.err = false
  causeProduced : s.cause.toNat ≤ 7
  causeZero : s.busy = true ∨ s.done = true → s.cause = 0#4
  causeNonzero : s.err = true → s.cause ≠ 0#4

/-! ## What is left unchanged -/

/-- What no command touches: the parameters, every IMEM word, IRQ_EN, and the model's own fields. -/
structure SameSystem (s t : State) : Prop where
  cfg : t.cfg = s.cfg
  imem : ∀ i, t.imemWord i = s.imemWord i
  irqEn : t.irqEn = s.irqEn
  epoch : t.epoch = s.epoch
  draws : t.draws = s.draws
  schedule : t.schedule = s.schedule
  replies : t.replies = s.replies

/-- STATUS and CAUSE unchanged. -/
structure SameStatus (s t : State) : Prop where
  busy : t.busy = s.busy
  done : t.done = s.done
  err : t.err = s.err
  cause : t.cause = s.cause

/-- Every byte of DMEM reads as before. -/
def SameMemory (s t : State) : Prop := ∀ a, t.dmemByte a = s.dmemByte a

/-- Every byte of DMEM outside the n bytes at addr reads as before. -/
def SameMemoryOutside (addr n : Nat) (s t : State) : Prop :=
  ∀ a, a < addr ∨ addr + n ≤ a → t.dmemByte a = s.dmemByte a

/-- Both register files and F unchanged. -/
structure SameRegisters (s t : State) : Prop where
  scalars : ∀ r, t.S r = s.S r
  bignums : ∀ r, t.B r = s.B r
  flag : t.flag = s.flag

/-! ## What a command does, with its frame -/

/-- A command completed that writes v to scalar register d and nothing else; PC advanced by 1. -/
structure WritesScalar (d : SReg) (v : Word) (s t : State) : Prop where
  value : t.S d = v
  scalars : ∀ r, r ≠ d → t.S r = s.S r
  bignums : ∀ r, t.B r = s.B r
  flag : t.flag = s.flag
  memory : SameMemory s t
  status : SameStatus s t
  pc : t.pc = s.pc + 1
  system : SameSystem s t

/-- A command completed that writes x to bignum register d and nothing else; PC advanced by 1. -/
structure WritesBignum (d : BReg) (x : ByteString) (s t : State) : Prop where
  value : t.B d = x
  bignums : ∀ r, r ≠ d → t.B r = s.B r
  scalars : ∀ r, t.S r = s.S r
  flag : t.flag = s.flag
  memory : SameMemory s t
  status : SameStatus s t
  pc : t.pc = s.pc + 1
  system : SameSystem s t

/-- A command completed that writes x to bignum register d and x' to d', and nothing else; PC advanced by 1. -/
structure WritesTwoBignums (d : BReg) (x : ByteString) (d' : BReg) (x' : ByteString) (s t : State) : Prop where
  first : t.B d = x
  second : t.B d' = x'
  bignums : ∀ r, r ≠ d → r ≠ d' → t.B r = s.B r
  scalars : ∀ r, t.S r = s.S r
  flag : t.flag = s.flag
  memory : SameMemory s t
  status : SameStatus s t
  pc : t.pc = s.pc + 1
  system : SameSystem s t

/-- A command completed that writes b to F and nothing else; PC advanced by 1. -/
structure WritesFlag (b : Bool) (s t : State) : Prop where
  value : t.flag = b
  scalars : ∀ r, t.S r = s.S r
  bignums : ∀ r, t.B r = s.B r
  memory : SameMemory s t
  status : SameStatus s t
  pc : t.pc = s.pc + 1
  system : SameSystem s t

/-- A command completed that stores x at addr, byte 0 at the lowest address, and nothing else; PC advanced by 1. -/
structure StoresBytes (addr : Nat) (x : ByteString) (s t : State) : Prop where
  stored : ∀ (k : Nat) (h : k < x.length), t.dmemByte (addr + k) = x[k]
  outside : SameMemoryOutside addr x.length s t
  registers : SameRegisters s t
  status : SameStatus s t
  pc : t.pc = s.pc + 1
  system : SameSystem s t

/-- A run ended with HALT: BUSY 0, DONE 1, PC and everything else as before (R562). -/
structure Halts (s t : State) : Prop where
  busy : t.busy = false
  done : t.done = true
  err : t.err = s.err
  cause : t.cause = s.cause
  pc : t.pc = s.pc
  registers : SameRegisters s t
  memory : SameMemory s t
  system : SameSystem s t

/-- A run ended with exception e: CAUSE, ERR and BUSY as R806 says, PC and everything else as before. -/
structure Raises (e : Exn) (s t : State) : Prop where
  cause : t.cause = e.code
  err : t.err = true
  busy : t.busy = false
  done : t.done = s.done
  pc : t.pc = s.pc
  registers : SameRegisters s t
  memory : SameMemory s t
  system : SameSystem s t

/-- The engine acts next, on s₀: the schedule is empty and s₀ is the state itself, or the schedule names the engine and s₀ is
the state with that event taken off (R215; the schedule is the model's own, log 3). -/
def EngineNext (s s₀ : State) : Prop :=
  (s.schedule = [] ∧ s₀ = s) ∨ ∃ es, s.schedule = .engine :: es ∧ s₀ = { s with schedule := es }

/-- The command answers a next state of which P holds. -/
def Answers (i : Instr) (s : State) (P : State → Prop) : Prop := ∃ t, exec i s = .next t ∧ P t

/-- The command's word has the given opcode, no reserved bit of the given format set, and the given field values in f1, f2,
f3, f4 in that order; and it decodes to the command. -/
def EncodedAs (i : Instr) (op : BitVec 8) (f : Format) (fields : List (BitVec 4)) : Prop :=
  opField (encode i) = op ∧ reservedClean f (encode i) = true ∧
  [f1Field (encode i), f2Field (encode i), f3Field (encode i), f4Field (encode i)].take fields.length = fields ∧
  decode (encode i) = .ok i

/-! ## Numbers the claims speak of -/

/-- The three-way comparison of two numbers: -1, 0 or 1 (R400, R401, D25). -/
def threeWay (a b : Nat) : Int := if a < b then -1 else if a = b then 0 else 1

/-- The two's-complement reading of a byte string; 0 for the empty string (R608). -/
def signedVal (x : ByteString) : Int := if 2 ^ (8 * x.length) ≤ 2 * val x then (val x : Int) - 2 ^ (8 * x.length) else val x

/-- u is the canonical Bezout coefficient of a for a and b (R710). -/
def IsCanonical (a b u : Nat) : Prop :=
  if b = 0 then u = (if a = 0 then 0 else 1) else u < b / Nat.gcd a b ∧ u * a % b = Nat.gcd a b % b

/-! ## Tables of the spec -/

/-- The exceptions a command can raise besides FetchFault and IllegalInstruction (R811). -/
def exceptionsOf : Instr → List Exn
  | .halt | .lil .. | .lih .. | .sadd .. | .ssub .. | .sshl .. | .sshr .. | .scmp .. | .ssel .. | .ftst .. | .fpars ..
  | .fparb .. | .bmov .. | .blen .. | .beq .. | .btrml .. | .btrmr .. | .blsh1 .. | .brsh1 .. | .brsh1s .. | .bshl ..
  | .bshr .. | .badd .. | .bsub .. | .bgcd .. | .bxgcd .. => []
  | .bcmp .. | .bsel .. | .band .. | .bor .. | .bxor .. => [.lengthMismatch]
  | .sdiv .. | .smod .. | .bdivmod .. | .bdiv .. | .bmod .. | .bmodpow .. => [.divisionByZero]
  | .bmodinv .. => [.divisionByZero, .inverseNotFound]
  | .brsz .. | .bnorm .. | .bnormu .. | .bmul .. | .bpow .. => [.capacityExceeded]
  | .bld .. => [.capacityExceeded, .dataAddressFault]
  | .bst .. | .sld .. | .sst .. => [.dataAddressFault]

/-- The scalar register a command writes, if it is one of the writers of R102. -/
def scalarDest : Instr → Option SReg
  | .lil d _ | .lih d _ => some d
  | .sadd d _ _ | .ssub d _ _ | .sshl d _ _ | .sshr d _ _ | .scmp d _ _ | .ssel d _ _ | .sdiv d _ _ | .smod d _ _ => some d
  | .sld d _ => some d
  | .blen d _ => some d
  | .bcmp d _ _ | .beq d _ _ => some d
  | .halt | .ftst .. | .fpars .. | .fparb .. | .bld .. | .bst .. | .bmov .. | .sst .. | .brsz .. | .btrml .. | .btrmr ..
  | .bnorm .. | .bnormu .. | .bsel .. | .band .. | .bor .. | .bxor .. | .blsh1 .. | .brsh1 .. | .brsh1s .. | .bshl ..
  | .bshr .. | .badd .. | .bsub .. | .bmul .. | .bdivmod .. | .bdiv .. | .bmod .. | .bpow .. | .bmodpow .. | .bgcd ..
  | .bxgcd .. | .bmodinv .. => none

/-- The bignum registers a command writes, if it is one of the writers of R106. -/
def bignumDests : Instr → List BReg
  | .bld d _ _ | .brsz d _ _ | .bnorm d _ _ | .bnormu d _ _ => [d]
  | .bmov d _ | .btrml d _ | .btrmr d _ => [d]
  | .bsel d _ _ | .band d _ _ | .bor d _ _ | .bxor d _ _ | .bshl d _ _ | .bshr d _ _ | .badd d _ _ | .bsub d _ _
  | .bmul d _ _ | .bdiv d _ _ | .bmod d _ _ | .bgcd d _ _ | .bmodinv d _ _ => [d]
  | .blsh1 d | .brsh1 d | .brsh1s d => [d]
  | .bdivmod d d' _ _ | .bxgcd d d' _ _ => [d, d']
  | .bpow d _ _ _ => [d]
  | .bmodpow d _ _ _ => [d]
  | .halt | .lil .. | .lih .. | .sadd .. | .ssub .. | .sshl .. | .sshr .. | .scmp .. | .ssel .. | .sdiv .. | .smod ..
  | .ftst .. | .fpars .. | .fparb .. | .bst .. | .blen .. | .sld .. | .sst .. | .bcmp .. | .beq .. => []

/-- The commands that write F (R109). -/
def writesFlag : Instr → Bool
  | .ftst .. | .fpars .. | .fparb .. => true
  | .halt | .lil .. | .lih .. | .sadd .. | .ssub .. | .sshl .. | .sshr .. | .scmp .. | .ssel .. | .sdiv .. | .smod ..
  | .bld .. | .bst .. | .bmov .. | .blen .. | .sld .. | .sst .. | .brsz .. | .btrml .. | .btrmr .. | .bnorm .. | .bnormu ..
  | .bcmp .. | .beq .. | .bsel .. | .band .. | .bor .. | .bxor .. | .blsh1 .. | .brsh1 .. | .brsh1s .. | .bshl ..
  | .bshr .. | .badd .. | .bsub .. | .bmul .. | .bdivmod .. | .bdiv .. | .bmod .. | .bpow .. | .bmodpow .. | .bgcd ..
  | .bxgcd .. | .bmodinv .. => false

/-- The commands that read F (R109). -/
def readsFlag : Instr → Bool
  | .ssel .. | .bsel .. => true
  | .halt | .lil .. | .lih .. | .sadd .. | .ssub .. | .sshl .. | .sshr .. | .scmp .. | .sdiv .. | .smod .. | .ftst ..
  | .fpars .. | .fparb .. | .bld .. | .bst .. | .bmov .. | .blen .. | .sld .. | .sst .. | .brsz .. | .btrml .. | .btrmr ..
  | .bnorm .. | .bnormu .. | .bcmp .. | .beq .. | .band .. | .bor .. | .bxor .. | .blsh1 .. | .brsh1 .. | .brsh1s ..
  | .bshl .. | .bshr .. | .badd .. | .bsub .. | .bmul .. | .bdivmod .. | .bdiv .. | .bmod .. | .bpow .. | .bmodpow ..
  | .bgcd .. | .bxgcd .. | .bmodinv .. => false

/-- Where a command stores and how many bytes, from the state before it: BST and SST only (R551, R553). -/
def storeRange : Instr → State → Option (Nat × Nat)
  | .bst x a, s => some ((s.S a).toNat, (s.B x).length)
  | .sst _ a, s => some ((s.S a).toNat, 4)
  | .halt, _ | .lil .., _ | .lih .., _ | .sadd .., _ | .ssub .., _ | .sshl .., _ | .sshr .., _ | .scmp .., _ | .ssel .., _
  | .sdiv .., _ | .smod .., _ | .ftst .., _ | .fpars .., _ | .fparb .., _ | .bld .., _ | .bmov .., _ | .blen .., _
  | .sld .., _ | .brsz .., _ | .btrml .., _ | .btrmr .., _ | .bnorm .., _ | .bnormu .., _ | .bcmp .., _ | .beq .., _
  | .bsel .., _ | .band .., _ | .bor .., _ | .bxor .., _ | .blsh1 .., _ | .brsh1 .., _ | .brsh1s .., _ | .bshl .., _
  | .bshr .., _ | .badd .., _ | .bsub .., _ | .bmul .., _ | .bdivmod .., _ | .bdiv .., _ | .bmod .., _ | .bpow .., _
  | .bmodpow .., _ | .bgcd .., _ | .bxgcd .., _ | .bmodinv .., _ => none

end Sys2Proof.Machine
end

