-- ==== Sys2Proof/Certificates/Slice0/Obligations.lean ====
section
/-! DEFINITION. The statements for the provers. Each docstring names the rules of spec/ it formalises. A statement about a
command says what it answers in every state, with the command's frame (Safety.lean), and how its word is encoded. -/

open Sys2Proof Sys2Proof.Machine

/-! ## Encoding (30_encoding.md) -/

/-- R314: the example words of the spec decode to the commands written beside them. -/
def Obligations.ExampleWordsDecode : Prop :=
  decode 0x01000000#32 = .ok .halt ∧
  decode 0x10101234#32 = .ok (.lil ⟨1⟩ 0x1234) ∧
  decode 0x1110ABCD#32 = .ok (.lih ⟨1⟩ 0xABCD) ∧
  decode 0x20320000#32 = .ok (.ftst ⟨3⟩ .gt) ∧
  decode 0x30112000#32 = .ok (.bld ⟨1⟩ ⟨1⟩ ⟨2⟩) ∧
  decode 0x31340000#32 = .ok (.bst ⟨3⟩ ⟨4⟩) ∧
  decode 0x60312000#32 = .ok (.badd ⟨3⟩ ⟨1⟩ ⟨2⟩) ∧
  decode 0x63451200#32 = .ok (.bdivmod ⟨4⟩ ⟨5⟩ ⟨1⟩ ⟨2⟩) ∧
  decode 0x71301200#32 = .ok (.bmodpow ⟨3⟩ ⟨0⟩ ⟨1⟩ ⟨2⟩)

/-- R301 to R306, R311: decoding the word of any well-formed command gives the command back, every operand included. -/
def Obligations.DecodeOfEncodeIsTheCommand : Prop := ∀ i : Instr, i.wf = true → decode (encode i) = .ok i

/-- R308 to R311: a word that decodes is the one encoding of a well-formed command, so no two words name one command
and no bit of a legal word is ignored. -/
def Obligations.DecodedWordIsItsEncoding : Prop :=
  ∀ (w : Word) (i : Instr), decode w = .ok i → i.wf = true ∧ encode i = w

/-- R307: exactly the words with an opcode of its list are rejected for their opcode; the all-zero word is one, and a run
that reaches it stops with IllegalInstruction, whether the schedule is empty or names the engine next (log 3). -/
def Obligations.UnassignedOpcodesAreIllegal : Prop :=
  (∀ w : Word, decode w = .error .unassignedOpcode ↔
    (let op := (opField w).toNat
     op = 0x00 ∨ (0x02 ≤ op ∧ op ≤ 0x0F) ∨ (0x1A ≤ op ∧ op ≤ 0x1F) ∨ (0x23 ≤ op ∧ op ≤ 0x2F) ∨ op = 0x36 ∨ op = 0x37 ∨
     (0x3D ≤ op ∧ op ≤ 0x3F) ∨ (0x43 ≤ op ∧ op ≤ 0x4F) ∨ (0x58 ≤ op ∧ op ≤ 0x5F) ∨ (0x66 ≤ op ∧ op ≤ 0x6F) ∨
     (0x72 ≤ op ∧ op ≤ 0x77) ∨ (0x7B ≤ op ∧ op ≤ 0xFF))) ∧
  (∀ s s₀ : State, EngineNext s s₀ → s₀.busy = true → s₀.pc.toNat < s₀.cfg.imemWords → s₀.imemWord s₀.pc.toNat = 0#32 →
    ∃ t, step s = .next t ∧ Raises .illegalInstruction s₀ t)

/-- R308, R309: a word with an assigned opcode is illegal if a bit its format marks 0 is 1; with clean reserved fields
FTST is illegal with f2 >= 6, and BDIVMOD and BXGCD with f1 = f2. -/
def Obligations.ReservedFieldsAndValueConstraints : Prop :=
  (∀ (i : Instr) (w : Word) (k : Nat), opField w = i.opcode → k < 24 → i.format.mask.getLsbD k = true →
    w.getLsbD k = true → decode w = .error .reservedField) ∧
  (∀ w : Word, opField w = 0x20#8 → reservedClean .R2 w = true → 6 ≤ (f2Field w).toNat →
    decode w = .error .conditionCode) ∧
  (∀ w : Word, opField w = 0x63#8 ∨ opField w = 0x79#8 → reservedClean .R4 w = true → f1Field w = f2Field w →
    decode w = .error .sameDestination)

/-- R313: LI expands to LIL then LIH, and the pair leaves S[d] = imm32 and every other register as it was. -/
def Obligations.LoadImmediatePair : Prop :=
  ∀ (d : SReg) (v : Word) (s : State),
    asmWords (.li d v) = [encode (.lil d (v.extractLsb' 0 16)), encode (.lih d (v.extractLsb' 16 16))] ∧
    ∃ t t', exec (.lil d (v.extractLsb' 0 16)) s = .next t ∧ exec (.lih d (v.extractLsb' 16 16)) t = .next t' ∧
      t'.S d = v ∧ (∀ r, r ≠ d → t'.S r = s.S r) ∧ (∀ r, t'.B r = s.B r) ∧ t'.flag = s.flag ∧ SameMemory s t'

/-! ## The step (10_state.md R112, 60_exceptions.md) -/

/-- R112: while a run is in progress and the word at PC decodes to a command, the engine's step is that command's effect,
whether the schedule is empty or names the engine next. -/
def Obligations.StepRunsTheDecodedCommand : Prop :=
  ∀ (s : State) (i : Instr), s.busy = true → s.pc.toNat < s.cfg.imemWords → decode (s.imemWord s.pc.toNat) = .ok i →
    (s.schedule = [] → step s = exec i s) ∧
    (∀ es, s.schedule = .engine :: es → step s = exec i { s with schedule := es })

/-- R801, R802, R310: a fetch at PC >= IMEM_WORDS raises FetchFault, and only such a fetch does; an illegal word raises
IllegalInstruction. Neither has another effect (R806). s₀ is the state the engine acts on: s itself where the schedule is
empty, s with the event taken off where the schedule names the engine next (log 3). -/
def Obligations.FetchAndDecodeExceptions : Prop :=
  ∀ s s₀ : State, EngineNext s s₀ → s₀.busy = true →
    (s₀.cfg.imemWords ≤ s₀.pc.toNat → ∃ t, step s = .next t ∧ Raises .fetchFault s₀ t) ∧
    (s₀.pc.toNat < s₀.cfg.imemWords → ∀ e, decode (s₀.imemWord s₀.pc.toNat) = .error e →
      ∃ t, step s = .next t ∧ Raises .illegalInstruction s₀ t) ∧
    (s₀.pc.toNat < s₀.cfg.imemWords → s₀.cause ≠ Exn.fetchFault.code → ∀ t, step s = .next t →
      t.cause ≠ Exn.fetchFault.code)

/-- R215, R850, R900: the head of the schedule acts, one event a step; an idle engine changes nothing. The schedule is the
model's own (log 3). -/
def Obligations.ScheduleDecidesWhoActs : Prop :=
  ∀ s : State,
    (s.busy = false → s.schedule = [] → step s = .next s) ∧
    (∀ es, s.busy = false → s.schedule = .engine :: es → step s = .next { s with schedule := es }) ∧
    (∀ addr v es, s.schedule = .hostWrite addr v :: es → step s = .next (hostWrite addr v { s with schedule := es })) ∧
    (∀ addr es, s.schedule = .hostRead addr :: es → step s = .next (hostRead addr { s with schedule := es })) ∧
    (∀ es, s.schedule = .reset :: es → step s = .next (State.powerOn { s with schedule := es }))

/-- R113: a step of a run either completes a command, with PC advanced by exactly 1 and still at most IMEM_WORDS (R114),
or ends the run with PC unchanged, whether the schedule is empty or names the engine next (log 3). -/
def Obligations.PcAdvancesByOneOrStays : Prop :=
  ∀ s s₀ t : State, EngineNext s s₀ → s₀.cfg.valid → s₀.busy = true → step s = .next t →
    (t.busy = true ∧ t.pc.toNat = s₀.pc.toNat + 1 ∧ t.pc.toNat ≤ s₀.cfg.imemWords) ∨
    (t.busy = false ∧ t.pc = s₀.pc ∧ (t.done = true ∨ t.err = true))

/-- R806, R807, R811: a command raises one of the exceptions its row of R811 lists, with no other effect; or it is HALT and
ends the run; or it completes with STATUS and CAUSE as before and PC advanced by 1. The codes are those of R800. -/
def Obligations.CommandOutcomes : Prop :=
  (∀ (i : Instr) (s t : State), exec i s = .next t →
    (∃ e ∈ exceptionsOf i, Raises e s t) ∨ (i = .halt ∧ Halts s t) ∨
    (i ≠ .halt ∧ SameStatus s t ∧ t.pc = s.pc + 1)) ∧
  (∀ i : Instr, ¬ (Exn.lengthMismatch ∈ exceptionsOf i ∧ Exn.divisionByZero ∈ exceptionsOf i)) ∧
  (Exn.lengthMismatch.code.toNat = 1 ∧ Exn.divisionByZero.code.toNat = 2 ∧ Exn.inverseNotFound.code.toNat = 3 ∧
    Exn.illegalInstruction.code.toNat = 4 ∧ Exn.capacityExceeded.code.toNat = 5 ∧ Exn.dataAddressFault.code.toNat = 6 ∧
    Exn.fetchFault.code.toNat = 7)

/-- R102, R106, R109, R200, R202, R224: a command changes no scalar register but its scalar destination, no bignum register
but its bignum destinations, F only if it is FTST, FPARS or FPARB, no DMEM byte outside the range BST or SST stores to,
and none of the parameters, the IMEM words, IRQ_EN and the model's own fields. What happens to PC, STATUS and CAUSE is
CommandOutcomes' subject and not said here. -/
def Obligations.CommandsChangeOnlyTheirDestinations : Prop :=
  ∀ (i : Instr) (s t : State), exec i s = .next t →
    (∀ r, scalarDest i ≠ some r → t.S r = s.S r) ∧
    (∀ r, r ∉ bignumDests i → t.B r = s.B r) ∧
    (writesFlag i = false → t.flag = s.flag) ∧
    (storeRange i s = none → SameMemory s t) ∧
    (∀ addr n, storeRange i s = some (addr, n) → SameMemoryOutside addr n s t) ∧
    SameSystem s t

/-- R109: F is written only by FTST, FPARS and FPARB, and read only by BSEL and SSEL: any other command does the same
whatever F is, F itself apart. -/
def Obligations.FlagWritersAndReaders : Prop :=
  (∀ (i : Instr) (s t : State), exec i s = .next t → writesFlag i = false → t.flag = s.flag) ∧
  (∀ (i : Instr) (s t : State) (b : Bool), readsFlag i = false → exec i s = .next t →
    ∃ t', exec i (s.setFlag b) = .next t' ∧ t'.setFlag false = t.setFlag false ∧
      (writesFlag i = true → t'.flag = t.flag))

/-- R806, R807, R310, R850: nothing stops the machine: every step of every state answers a next state. -/
def Obligations.EveryStepAnswersANextState : Prop :=
  (∀ (i : Instr) (s : State), ∃ t, exec i s = .next t) ∧ (∀ s : State, ∃ t, step s = .next t)

/-- R105, R132, R134, R160: the invariant holds after reset in every configuration within the parameter ranges.
State.reset is the state after reset in configuration E0, which is the model's choice (log 1). -/
def Obligations.InvariantAtReset : Prop :=
  (∀ c : Config, c.valid → Inv (State.resetWith c)) ∧ State.reset = State.resetWith Config.e0 ∧ Inv State.reset

/-- R105, R132, R134, R800 (U10, U11): every step, of the engine, the host or the platform, keeps the invariant. -/
def Obligations.EveryStepKeepsTheInvariant : Prop := ∀ s t : State, Inv s → step s = .next t → Inv t

/-- R216, R913: when the engine acts alone, every run ends in at most IMEM_WORDS + 1 steps, with DONE or ERR. -/
def Obligations.EveryRunEnds : Prop :=
  ∀ s : State, s.cfg.valid → s.busy = true → s.schedule = [] →
    ∃ k, k ≤ s.cfg.imemWords + 1 ∧ ∃ t : State, Host.Core.run core k s = .next t ∧ t.busy = false ∧
      (t.done = true ∨ t.err = true)

/-! ## Reset and the host port (10_state.md, 20_memory.md, 70_reset_and_hazards.md) -/

/-- R160: reset, in any state, leaves every register cleared, PC 0, the engine idle, IRQ masked, and the identification and
configuration registers at their constants. IMEM and DMEM are unspecified then, so nothing is said of them. -/
def Obligations.ResetLeavesTheSpecValues : Prop :=
  let AfterReset : Config → State → Prop := fun c t =>
    t.cfg = c ∧ (∀ r, t.S r = 0#32) ∧ (∀ r, t.B r = []) ∧ t.flag = false ∧ t.pc = 0#16 ∧ t.irqEn = false ∧ irq t = false ∧
    t.busy = false ∧ t.done = false ∧ t.err = false ∧ t.cause = 0#4 ∧
    hostReadValue t 0x000 = 0x43544245#32 ∧ hostReadValue t 0x004 = 0x00000001#32 ∧
    (∀ addr ∈ [0x008#32, 0x00C#32, 0x010#32, 0x014#32], hostReadValue t addr = 0#32) ∧
    hostReadValue t 0x018 = BitVec.ofNat 32 c.bnMaxBytes ∧ hostReadValue t 0x01C = BitVec.ofNat 32 c.dmemBytes ∧
    hostReadValue t 0x020 = BitVec.ofNat 32 c.imemWords
  (∀ (s : State) (es : List Event), s.schedule = .reset :: es → ∃ t, step s = .next t ∧ AfterReset s.cfg t) ∧
  (∀ c, AfterReset c (State.resetWith c))

/-- R133: a write of CTRL with bit 0 = 1 while idle clears both register files, F, DONE, ERR and CAUSE and sets BUSY; PC,
IMEM and DMEM are kept. -/
def Obligations.StartClearsTheRegisters : Prop :=
  ∀ (s : State) (v : Word), s.busy = false → v.getLsbD 0 = true →
    let t := hostWrite 0x008 v s
    (∀ r, t.S r = 0#32) ∧ (∀ r, t.B r = []) ∧ t.flag = false ∧ t.done = false ∧ t.err = false ∧ t.cause = 0#4 ∧
    t.busy = true ∧ t.pc = s.pc ∧ (∀ i, t.imemWord i = s.imemWord i) ∧ SameMemory s t ∧ t.cfg = s.cfg

/-- R131: CTRL reads IRQ_EN in bit 1 and 0 elsewhere, and 0 after reset; a write sets IRQ_EN from bit 1 in any state, and does nothing else
unless bit 0 is 1 and BUSY is 0, when it then starts a run. -/
def Obligations.ControlRegister : Prop :=
  ∀ (s : State) (v : Word),
    hostReadValue s 0x008 = (if s.irqEn then 0x00000002#32 else 0x00000000#32) ∧
    (∀ c, hostReadValue (State.resetWith c) 0x008 = 0x00000000#32) ∧
    (s.busy = true ∨ v.getLsbD 0 = false → hostWrite 0x008 v s = { s with irqEn := v.getLsbD 1 }) ∧
    (s.busy = false → v.getLsbD 0 = true → hostWrite 0x008 v s = { s with irqEn := v.getLsbD 1 }.startRun ∧
      (hostWrite 0x008 v s).busy = true ∧ (hostWrite 0x008 v s).irqEn = v.getLsbD 1)

/-- R132, R820: STATUS reads BUSY, DONE and ERR in bits 0 to 2 and 0 elsewhere; a write clears DONE or ERR where it has a 1
and leaves everything else. The IRQ output is IRQ_EN AND (DONE OR ERR) in every state; it falls when the set bits are
cleared, and at START. -/
def Obligations.StatusRegister : Prop :=
  ∀ (s : State) (v : Word),
    (hostReadValue s 0x00C).toNat = s.busy.toNat + 2 * s.done.toNat + 4 * s.err.toNat ∧
    hostWrite 0x00C v s =
      { s with done := if v.getLsbD 1 then false else s.done, err := if v.getLsbD 2 then false else s.err } ∧
    (irq s = true ↔ s.irqEn = true ∧ (s.done = true ∨ s.err = true)) ∧
    ((s.done = true → v.getLsbD 1 = true) → (s.err = true → v.getLsbD 2 = true) → irq (hostWrite 0x00C v s) = false) ∧
    (s.busy = false → v.getLsbD 0 = true → irq (hostWrite 0x008 v s) = false)

/-- R130, R134, R136, R137, R210, R211: the read-only registers read their values, reserved offsets and addresses read 0,
writes to any of them are ignored, and address bits 1:0 do not matter. -/
def Obligations.ReadOnlyAndReservedRegisters : Prop :=
  ∀ s : State,
    hostReadValue s 0x000 = 0x43544245#32 ∧ hostReadValue s 0x004 = 0x00000001#32 ∧
    (hostReadValue s 0x010).toNat = s.cause.toNat ∧
    hostReadValue s 0x018 = BitVec.ofNat 32 s.cfg.bnMaxBytes ∧
    hostReadValue s 0x01C = BitVec.ofNat 32 s.cfg.dmemBytes ∧
    hostReadValue s 0x020 = BitVec.ofNat 32 s.cfg.imemWords ∧
    (∀ v : Word, ∀ addr ∈ [0x000#32, 0x004#32, 0x010#32, 0x018#32, 0x01C#32, 0x020#32], hostWrite addr v s = s) ∧
    (∀ addr v : Word, (0x24 ≤ addr.toNat ∧ addr.toNat < 0x10000) ∨ (0x20000 ≤ addr.toNat ∧ addr.toNat < 0x100000) ∨
      0x200000 ≤ addr.toNat → hostReadValue s addr = 0#32 ∧ hostWrite addr v s = s) ∧
    (∀ a b v : Word, a.toNat / 4 = b.toNat / 4 → hostReadValue s a = hostReadValue s b ∧ hostWrite a v s = hostWrite b v s)

/-- R135: while idle a host write sets PC to bits 15:0 and a read returns PC; while BUSY = 1 a write is ignored and a read
returns some 16-bit value, zero-extended. -/
def Obligations.PcRegister : Prop :=
  ∀ (s : State) (v : Word),
    (s.busy = false → hostWrite 0x014 v s = { s with pc := BitVec.ofNat 16 v.toNat } ∧
      hostReadValue s 0x014 = BitVec.ofNat 32 s.pc.toNat) ∧
    (s.busy = true → hostWrite 0x014 v s = s ∧ ∃ x : BitVec 16, hostReadValue s 0x014 = BitVec.ofNat 32 x.toNat)

/-- R214: while BUSY = 1 a write to either window is ignored and a read of one tells nothing of the memories; a read in any
state has no side effect on the machine (R207). R214 calls such a read's value unspecified. That it depends on the count of
reads alone is the model's choice (log 5), and so is that this holds past the end of a memory too (log 6). -/
def Obligations.WindowsClosedDuringARun : Prop :=
  (∀ (s : State) (addr v : Word), s.busy = true →
    (0x10000 ≤ addr.toNat ∧ addr.toNat < 0x20000) ∨ (0x100000 ≤ addr.toNat ∧ addr.toNat < 0x200000) →
    hostWrite addr v s = s ∧ ∀ s' : State, s'.busy = true → s'.draws = s.draws →
      hostReadValue s' addr = hostReadValue s addr) ∧
  (∀ (s : State) (addr : Word), hostRead addr s =
    { s with draws := (hostRead addr s).draws, replies := hostReadValue s addr :: s.replies })

/-- R213: the DMEM window reads and writes the four bytes of a word, the lowest address most significant; past DMEM_BYTES a
read returns 0 and a write is ignored; while BUSY = 1 a write is ignored. That a read then
depends on the count of reads alone is the model's choice (log 5), past DMEM_BYTES as well (log 6). -/
def Obligations.DmemWindow : Prop :=
  ∀ (s : State) (a : Nat) (v : Word), a % 4 = 0 → a < 0x100000 →
    let addr := BitVec.ofNat 32 (0x100000 + a)
    (s.busy = false → a < s.cfg.dmemBytes →
      (hostReadValue s addr).toNat = (s.dmemByte a).toNat * 2 ^ 24 + (s.dmemByte (a + 1)).toNat * 2 ^ 16 +
        (s.dmemByte (a + 2)).toNat * 2 ^ 8 + (s.dmemByte (a + 3)).toNat ∧
      (∀ k, k < 4 → (hostWrite addr v s).dmemByte (a + k) = v.extractLsb' (24 - 8 * k) 8) ∧
      SameMemoryOutside a 4 s (hostWrite addr v s) ∧
      hostWrite addr v s = { s with dmem := (hostWrite addr v s).dmem }) ∧
    (s.busy = false → s.cfg.dmemBytes ≤ a → hostReadValue s addr = 0#32 ∧ hostWrite addr v s = s) ∧
    (s.busy = true → hostWrite addr v s = s ∧ ∀ s' : State, s'.busy = true → s'.draws = s.draws →
      hostReadValue s' addr = hostReadValue s addr)

/-- R212, R201: the IMEM window reads and writes whole command words, which the engine fetches bit for bit; past IMEM_WORDS
a read returns 0 and a write is ignored; while BUSY = 1 a write is ignored. That a read then
depends on the count of reads alone is the model's choice (log 5), past IMEM_WORDS as well (log 6). -/
def Obligations.ImemWindow : Prop :=
  ∀ (s : State) (i : Nat) (v : Word), i < 0x4000 →
    let addr := BitVec.ofNat 32 (0x10000 + 4 * i)
    (s.busy = false → i < s.cfg.imemWords →
      hostReadValue s addr = s.imemWord i ∧
      (hostWrite addr v s).imemWord i = v ∧
      (∀ j, j ≠ i → (hostWrite addr v s).imemWord j = s.imemWord j) ∧
      hostWrite addr v s = { s with imem := (hostWrite addr v s).imem } ∧
      (s.pc.toNat = i → (hostWrite addr v s).fetch = some v)) ∧
    (s.busy = false → s.cfg.imemWords ≤ i → hostReadValue s addr = 0#32 ∧ hostWrite addr v s = s) ∧
    (s.busy = true → hostWrite addr v s = s ∧ ∀ s' : State, s'.busy = true → s'.draws = s.draws →
      hostReadValue s' addr = hostReadValue s addr)

/-- R204: a BLD of 4 bytes at a, an SLD at a and a host read at a see the same four bytes in the same order. -/
def Obligations.OneByteOrderEverywhere : Prop :=
  ∀ (s : State) (d : SReg) (x : BReg) (a n : SReg), s.cfg.valid → 4 ≤ s.cfg.bnMaxBytes → (s.S n).toNat = 4 →
    (s.S a).toNat % 4 = 0 → (s.S a).toNat + 4 ≤ s.cfg.dmemBytes →
    ∃ (v : Word) (t t' : State), exec (.sld d a) s = .next t ∧ t.S d = v ∧
      exec (.bld x a n) s = .next t' ∧ t'.B x = enc 4 v.toNat ∧
      ∀ h : State, h.busy = false → h.cfg = s.cfg → SameMemory s h →
        hostReadValue h (BitVec.ofNat 32 (0x100000 + (s.S a).toNat)) = v

/-- R133, R103, R107: what the register files and F hold while the engine is idle never reaches the host, by any schedule of
runs and transactions: the replies, memories, PC, STATUS, CAUSE and IRQ are the same. -/
def Obligations.IdleRegistersNeverReachTheHost : Prop :=
  ∀ (s : State) (x : Vector Word 16) (y : Vector ByteString 16) (f : Bool) (n : Nat) (t t' : State), s.busy = false →
    Host.Core.run core n s = .next t →
    Host.Core.run core n ({ s with sreg := x, breg := y, flag := f } : State) = .next t' →
    t'.replies = t.replies ∧ SameMemory t t' ∧ (∀ i, t'.imemWord i = t.imemWord i) ∧ t'.pc = t.pc ∧ SameStatus t t' ∧
    irq t' = irq t

/-! ## Scalar commands (42_scalar.md, 40_compare_select.md) -/

/-- R500, R501. -/
def Obligations.LilAndLihLoadHalves : Prop :=
  ∀ (d : SReg) (imm : BitVec 16) (s : State),
    EncodedAs (.lil d imm) 0x10 .I [d.field] ∧ immField (encode (.lil d imm)) = imm ∧
    Answers (.lil d imm) s (WritesScalar d (BitVec.ofNat 32 imm.toNat) s) ∧
    EncodedAs (.lih d imm) 0x11 .I [d.field] ∧ immField (encode (.lih d imm)) = imm ∧
    Answers (.lih d imm) s (WritesScalar d (BitVec.ofNat 32 (imm.toNat * 65536 + (s.S d).toNat % 65536)) s)

/-- R502, R503. -/
def Obligations.SaddAndSsubWrap : Prop :=
  ∀ (d a b : SReg) (s : State),
    EncodedAs (.sadd d a b) 0x12 .R3 [d.field, a.field, b.field] ∧
    Answers (.sadd d a b) s (WritesScalar d (BitVec.ofNat 32 ((s.S a).toNat + (s.S b).toNat)) s) ∧
    EncodedAs (.ssub d a b) 0x13 .R3 [d.field, a.field, b.field] ∧
    Answers (.ssub d a b) s (WritesScalar d (BitVec.ofInt 32 ((s.S a).toNat - (s.S b).toNat : Int)) s)

/-- R504, R505: the count is not masked; 32 or more gives 0; SSHR fills with zero. -/
def Obligations.ScalarShifts : Prop :=
  ∀ (d a b : SReg) (s : State),
    EncodedAs (.sshl d a b) 0x14 .R3 [d.field, a.field, b.field] ∧
    Answers (.sshl d a b) s
      (WritesScalar d (if 32 ≤ (s.S b).toNat then 0#32 else BitVec.ofNat 32 ((s.S a).toNat * 2 ^ (s.S b).toNat)) s) ∧
    EncodedAs (.sshr d a b) 0x15 .R3 [d.field, a.field, b.field] ∧
    Answers (.sshr d a b) s
      (WritesScalar d (if 32 ≤ (s.S b).toNat then 0#32 else BitVec.ofNat 32 ((s.S a).toNat / 2 ^ (s.S b).toNat)) s)

/-- R401: the comparison is unsigned. -/
def Obligations.ScmpComparesUnsigned : Prop :=
  ∀ (d a b : SReg) (s : State),
    EncodedAs (.scmp d a b) 0x16 .R3 [d.field, a.field, b.field] ∧
    Answers (.scmp d a b) s (WritesScalar d (BitVec.ofInt 32 (threeWay (s.S a).toNat (s.S b).toNat)) s)

/-- R404: the masked result is Sa when F = 1 and Sb when F = 0. -/
def Obligations.SselSelectsByFlag : Prop :=
  ∀ (d a b : SReg) (s : State),
    EncodedAs (.ssel d a b) 0x17 .R3 [d.field, a.field, b.field] ∧
    Answers (.ssel d a b) s (WritesScalar d (if s.flag = true then s.S a else s.S b) s)

/-- R507, R508, R509: unsigned quotient and remainder, which reassemble the dividend; a zero divisor raises DivisionByZero
and writes nothing. -/
def Obligations.ScalarDivision : Prop :=
  ∀ (d a b : SReg) (s : State),
    EncodedAs (.sdiv d a b) 0x18 .R3 [d.field, a.field, b.field] ∧
    EncodedAs (.smod d a b) 0x19 .R3 [d.field, a.field, b.field] ∧
    ((s.S b).toNat ≠ 0 → ∃ q r : Word, q.toNat = (s.S a).toNat / (s.S b).toNat ∧ r.toNat = (s.S a).toNat % (s.S b).toNat ∧
      Answers (.sdiv d a b) s (WritesScalar d q s) ∧ Answers (.smod d a b) s (WritesScalar d r s) ∧
      q * s.S b + r = s.S a ∧ r.toNat < (s.S b).toNat) ∧
    ((s.S b).toNat = 0 → Answers (.sdiv d a b) s (Raises .divisionByZero s) ∧
      Answers (.smod d a b) s (Raises .divisionByZero s))

/-- R405, R406, R407: FTST tests the signed scalar under its condition, whose code is the number R305 gives; FPARS and FPARB take bit 0. -/
def Obligations.FlagCommands : Prop :=
  ∀ (a : SReg) (c : Cond) (x : BReg) (s : State),
    EncodedAs (.ftst a c) 0x20 .R2 [a.field, match c with
      | .lt => 0#4
      | .eq => 1#4
      | .gt => 2#4
      | .le => 3#4
      | .ge => 4#4
      | .ne => 5#4] ∧
    Answers (.ftst a c) s (fun t => WritesFlag t.flag s t ∧ (t.flag = true ↔
      match c with
      | .lt => (s.S a).toInt < 0
      | .eq => (s.S a).toInt = 0
      | .gt => (s.S a).toInt > 0
      | .le => (s.S a).toInt ≤ 0
      | .ge => (s.S a).toInt ≥ 0
      | .ne => (s.S a).toInt ≠ 0)) ∧
    EncodedAs (.fpars a) 0x21 .R1 [a.field] ∧
    Answers (.fpars a) s (WritesFlag (decide ((s.S a).toNat % 2 = 1)) s) ∧
    EncodedAs (.fparb x) 0x22 .R1 [x.field] ∧
    Answers (.fparb x) s (WritesFlag (decide (val (s.B x) % 2 = 1)) s)

/-! ## Bignum compare and select (40_compare_select.md) -/

/-- R400: the numeric comparison of equal-length operands, which is the byte-by-byte one from byte 0; unequal lengths raise
LengthMismatch. -/
def Obligations.BcmpComparesEqualLengths : Prop :=
  (∀ (d : SReg) (a b : BReg) (s : State),
    EncodedAs (.bcmp d a b) 0x40 .R3 [d.field, a.field, b.field] ∧
    ((s.B a).length = (s.B b).length →
      Answers (.bcmp d a b) s (WritesScalar d (BitVec.ofInt 32 (threeWay (val (s.B a)) (val (s.B b)))) s)) ∧
    ((s.B a).length ≠ (s.B b).length → Answers (.bcmp d a b) s (Raises .lengthMismatch s))) ∧
  (∀ x y : ByteString, x.length = y.length → (val x < val y ↔
    ∃ (k : Nat) (u v : Byte), x.take k = y.take k ∧ x[k]? = some u ∧ y[k]? = some v ∧ u.toNat < v.toNat))

/-- R402: 1 exactly when the operands are bit-identical; unequal lengths give 0 and raise nothing. -/
def Obligations.BeqTestsIdentity : Prop :=
  ∀ (d : SReg) (a b : BReg) (s : State),
    EncodedAs (.beq d a b) 0x41 .R3 [d.field, a.field, b.field] ∧
    Answers (.beq d a b) s (WritesScalar d (if s.B a = s.B b then 1#32 else 0#32) s)

/-- R403: the masked result is Ba when F = 1 and Bb when F = 0; unequal lengths raise LengthMismatch. -/
def Obligations.BselSelectsByFlag : Prop :=
  ∀ (d a b : BReg) (s : State),
    EncodedAs (.bsel d a b) 0x42 .R3 [d.field, a.field, b.field] ∧
    ((s.B a).length = (s.B b).length →
      Answers (.bsel d a b) s (WritesBignum d (if s.flag = true then s.B a else s.B b) s)) ∧
    ((s.B a).length ≠ (s.B b).length → Answers (.bsel d a b) s (Raises .lengthMismatch s))

/-! ## Data movement and run control (43_move_control.md) -/

/-- R550: CapacityExceeded, then DataAddressFault, else the n bytes from addr, the first one most significant. -/
def Obligations.BldLoadsBytes : Prop :=
  ∀ (d : BReg) (a n : SReg) (s : State),
    let addr := (s.S a).toNat
    let len := (s.S n).toNat
    EncodedAs (.bld d a n) 0x30 .R3 [d.field, a.field, n.field] ∧
    (s.cfg.bnMaxBytes < len → Answers (.bld d a n) s (Raises .capacityExceeded s)) ∧
    (len ≤ s.cfg.bnMaxBytes → s.cfg.dmemBytes < addr + len → Answers (.bld d a n) s (Raises .dataAddressFault s)) ∧
    (len ≤ s.cfg.bnMaxBytes → addr + len ≤ s.cfg.dmemBytes →
      Answers (.bld d a n) s (fun t => WritesBignum d (t.B d) s t ∧ (t.B d).length = len ∧
        ∀ k, k < len → (t.B d)[k]? = some (s.dmemByte (addr + k))))

/-- R551: the register's bytes to addr, byte 0 to the lowest address, or DataAddressFault and no byte written. -/
def Obligations.BstStoresBytes : Prop :=
  ∀ (x : BReg) (a : SReg) (s : State),
    let addr := (s.S a).toNat
    EncodedAs (.bst x a) 0x31 .R2 [x.field, a.field] ∧
    (addr + (s.B x).length ≤ s.cfg.dmemBytes → Answers (.bst x a) s (StoresBytes addr (s.B x) s)) ∧
    (s.cfg.dmemBytes < addr + (s.B x).length → Answers (.bst x a) s (Raises .dataAddressFault s))

/-- R552, R553: four bytes, the lowest address in bits 31:24, at any alignment; DataAddressFault out of bounds. -/
def Obligations.SldAndSstMoveWords : Prop :=
  ∀ (d a : SReg) (s : State),
    let addr := (s.S a).toNat
    EncodedAs (.sld d a) 0x34 .R2 [d.field, a.field] ∧ EncodedAs (.sst d a) 0x35 .R2 [d.field, a.field] ∧
    (addr + 4 ≤ s.cfg.dmemBytes →
      Answers (.sld d a) s (WritesScalar d (BitVec.ofNat 32 ((s.dmemByte addr).toNat * 2 ^ 24 +
        (s.dmemByte (addr + 1)).toNat * 2 ^ 16 + (s.dmemByte (addr + 2)).toNat * 2 ^ 8 +
        (s.dmemByte (addr + 3)).toNat)) s) ∧
      Answers (.sst d a) s (StoresBytes addr
        [(s.S d).extractLsb' 24 8, (s.S d).extractLsb' 16 8, (s.S d).extractLsb' 8 8, (s.S d).extractLsb' 0 8] s)) ∧
    (s.cfg.dmemBytes < addr + 4 →
      Answers (.sld d a) s (Raises .dataAddressFault s) ∧ Answers (.sst d a) s (Raises .dataAddressFault s))

/-- R554, R555. -/
def Obligations.BmovAndBlen : Prop :=
  ∀ (d x : BReg) (e : SReg) (s : State),
    EncodedAs (.bmov d x) 0x32 .R2 [d.field, x.field] ∧ Answers (.bmov d x) s (WritesBignum d (s.B x) s) ∧
    EncodedAs (.blen e x) 0x33 .R2 [e.field, x.field] ∧
    Answers (.blen e x) s (WritesScalar e (BitVec.ofNat 32 (s.B x).length) s)

/-- R562, R820: HALT clears BUSY and sets DONE, keeps PC at its index, and raises IRQ if IRQ_EN = 1. -/
def Obligations.HaltEndsTheRun : Prop :=
  encode .halt = 0x01000000#32 ∧ EncodedAs .halt 0x01 .N [] ∧
  ∀ s : State, Answers .halt s (fun t => Halts s t ∧ irq t = s.irqEn)

/-! ## Resize and trim (41_resize_trim.md) -/

/-- R450: the first n bytes, zero bytes after the source's last one; CapacityExceeded if n > BN_MAX_BYTES. -/
def Obligations.BrszKeepsTheFirstBytes : Prop :=
  ∀ (d x : BReg) (n : SReg) (s : State),
    let len := (s.S n).toNat
    EncodedAs (.brsz d x n) 0x38 .R3 [d.field, x.field, n.field] ∧
    (len ≤ s.cfg.bnMaxBytes → Answers (.brsz d x n) s (fun t => WritesBignum d (t.B d) s t ∧ (t.B d).length = len ∧
      ∀ i, i < len → (t.B d)[i]? = some (if i < (s.B x).length then (s.B x).getD i 0#8 else 0#8))) ∧
    (s.cfg.bnMaxBytes < len → Answers (.brsz d x n) s (Raises .capacityExceeded s))

/-- R451, R452, R453: exactly the leading (trailing) zero bytes are removed, BTRML keeps the value, and trimming twice is
trimming once. -/
def Obligations.TrimsRemoveZeroBytes : Prop :=
  ∀ (d x d' : BReg) (s : State),
    EncodedAs (.btrml d x) 0x39 .R2 [d.field, x.field] ∧ EncodedAs (.btrmr d x) 0x3A .R2 [d.field, x.field] ∧
    Answers (.btrml d x) s (fun t => WritesBignum d (t.B d) s t ∧ (∃ k, s.B x = zeros k ++ t.B d) ∧
      (t.B d).head? ≠ some 0#8 ∧ val (t.B d) = val (s.B x) ∧
      Answers (.btrml d' d) t (WritesBignum d' (t.B d) t)) ∧
    Answers (.btrmr d x) s (fun t => WritesBignum d (t.B d) s t ∧ (∃ k, s.B x = t.B d ++ zeros k) ∧
      (t.B d).getLast? ≠ some 0#8 ∧ Answers (.btrmr d' d) t (WritesBignum d' (t.B d) t))

/-! ## Bitwise, shift and normalize (44_bignum_logic_shift.md) -/

/-- R600, R601, R602: byte by byte on equal lengths; LengthMismatch otherwise. -/
def Obligations.BitwiseCommands : Prop :=
  ∀ (d a b : BReg) (s : State),
    let Bytewise : (Byte → Byte → Byte) → State → Prop := fun f t =>
      WritesBignum d (t.B d) s t ∧ (t.B d).length = (s.B a).length ∧
      ∀ (k : Nat) (u v : Byte), (s.B a)[k]? = some u → (s.B b)[k]? = some v → (t.B d)[k]? = some (f u v)
    EncodedAs (.band d a b) 0x50 .R3 [d.field, a.field, b.field] ∧
    EncodedAs (.bor d a b) 0x51 .R3 [d.field, a.field, b.field] ∧
    EncodedAs (.bxor d a b) 0x52 .R3 [d.field, a.field, b.field] ∧
    ((s.B a).length = (s.B b).length →
      Answers (.band d a b) s (Bytewise (· &&& ·)) ∧ Answers (.bor d a b) s (Bytewise (· ||| ·)) ∧
      Answers (.bxor d a b) s (Bytewise (· ^^^ ·))) ∧
    ((s.B a).length ≠ (s.B b).length →
      Answers (.band d a b) s (Raises .lengthMismatch s) ∧ Answers (.bor d a b) s (Raises .lengthMismatch s) ∧
      Answers (.bxor d a b) s (Raises .lengthMismatch s))

/-- R603, R604, R605: one bit, in place, at the register's length; BRSH1S carries in the sign bit and so halves the signed
value, rounding down. -/
def Obligations.OneBitShifts : Prop :=
  ∀ (d : BReg) (s : State),
    let x := s.B d
    EncodedAs (.blsh1 d) 0x53 .R1 [d.field] ∧ Answers (.blsh1 d) s (WritesBignum d (enc x.length (2 * val x : Nat)) s) ∧
    EncodedAs (.brsh1 d) 0x54 .R1 [d.field] ∧ Answers (.brsh1 d) s (WritesBignum d (enc x.length (val x / 2 : Nat)) s) ∧
    EncodedAs (.brsh1s d) 0x55 .R1 [d.field] ∧
    Answers (.brsh1s d) s (fun t => WritesBignum d (t.B d) s t ∧ (t.B d).length = x.length ∧
      (x.length ≠ 0 → val (t.B d) = val x / 2 + (if (val x).testBit (8 * x.length - 1) then 2 ^ (8 * x.length - 1) else 0)) ∧
      signedVal (t.B d) = signedVal x / 2)

/-- R606, R607: shifts by the whole value of the count register, at the value's length, filled with zero. -/
def Obligations.ShiftsByACount : Prop :=
  ∀ (d x c : BReg) (s : State),
    EncodedAs (.bshl d x c) 0x56 .R3 [d.field, x.field, c.field] ∧
    Answers (.bshl d x c) s (WritesBignum d (enc (s.B x).length (val (s.B x) * 2 ^ val (s.B c) : Nat)) s) ∧
    EncodedAs (.bshr d x c) 0x57 .R3 [d.field, x.field, c.field] ∧
    Answers (.bshr d x c) s (WritesBignum d (enc (s.B x).length (val (s.B x) / 2 ^ val (s.B c) : Nat)) s)

/-- R608, R609: length change at the most significant end, by sign fill or zero fill; a shorter target keeps the last bytes;
the signed value, or the value modulo 2^(8n), is preserved; CapacityExceeded if n > BN_MAX_BYTES. -/
def Obligations.NormalizeCommands : Prop :=
  ∀ (d x : BReg) (n : SReg) (s : State),
    let len := (s.S n).toNat
    let l := (s.B x).length
    EncodedAs (.bnorm d x n) 0x3B .R3 [d.field, x.field, n.field] ∧
    EncodedAs (.bnormu d x n) 0x3C .R3 [d.field, x.field, n.field] ∧
    (len ≤ s.cfg.bnMaxBytes →
      Answers (.bnorm d x n) s (fun t => WritesBignum d (t.B d) s t ∧ (t.B d).length = len ∧
        (l ≤ len → t.B d = List.replicate (len - l) (if signedVal (s.B x) < 0 then 0xFF#8 else 0x00#8) ++ s.B x ∧
          signedVal (t.B d) = signedVal (s.B x)) ∧
        (len < l → t.B d = (s.B x).drop (l - len))) ∧
      Answers (.bnormu d x n) s (fun t => WritesBignum d (t.B d) s t ∧ (t.B d).length = len ∧
        (l ≤ len → t.B d = zeros (len - l) ++ s.B x) ∧ (len < l → t.B d = (s.B x).drop (l - len)) ∧
        val (t.B d) = val (s.B x) % 2 ^ (8 * len))) ∧
    (s.cfg.bnMaxBytes < len → Answers (.bnorm d x n) s (Raises .capacityExceeded s) ∧
      Answers (.bnormu d x n) s (Raises .capacityExceeded s))

/-! ## Arithmetic (45_bignum_arith.md) -/

/-- R650, R651: sum and difference modulo 2^(8L), L the longer length. -/
def Obligations.BaddAndBsubWrap : Prop :=
  ∀ (d a b : BReg) (s : State),
    let l := max (s.B a).length (s.B b).length
    EncodedAs (.badd d a b) 0x60 .R3 [d.field, a.field, b.field] ∧
    Answers (.badd d a b) s (fun t => WritesBignum d (t.B d) s t ∧ (t.B d).length = l ∧
      val (t.B d) = (val (s.B a) + val (s.B b)) % 2 ^ (8 * l)) ∧
    EncodedAs (.bsub d a b) 0x61 .R3 [d.field, a.field, b.field] ∧
    Answers (.bsub d a b) s (fun t => WritesBignum d (t.B d) s t ∧ (t.B d).length = l ∧
      (val (t.B d) : Int) = ((val (s.B a) : Int) - (val (s.B b) : Int)) % (2 ^ (8 * l) : Nat))

/-- R652: the exact product in twice the longer length, never truncated; CapacityExceeded if that does not fit a register. -/
def Obligations.BmulIsExact : Prop :=
  ∀ (d a b : BReg) (s : State),
    let l := 2 * max (s.B a).length (s.B b).length
    EncodedAs (.bmul d a b) 0x62 .R3 [d.field, a.field, b.field] ∧
    (l ≤ s.cfg.bnMaxBytes → Answers (.bmul d a b) s (fun t => WritesBignum d (t.B d) s t ∧ (t.B d).length = l ∧
      val (t.B d) = val (s.B a) * val (s.B b))) ∧
    (s.cfg.bnMaxBytes < l → Answers (.bmul d a b) s (Raises .capacityExceeded s))

/-- R653, R654, R655: quotient and remainder at the longer length, nothing truncated; DivisionByZero for a zero divisor. -/
def Obligations.BignumDivision : Prop :=
  ∀ (q r a b : BReg) (s : State),
    let l := max (s.B a).length (s.B b).length
    (q ≠ r → EncodedAs (.bdivmod q r a b) 0x63 .R4 [q.field, r.field, a.field, b.field]) ∧
    EncodedAs (.bdiv q a b) 0x64 .R3 [q.field, a.field, b.field] ∧
    EncodedAs (.bmod q a b) 0x65 .R3 [q.field, a.field, b.field] ∧
    (val (s.B b) ≠ 0 → ∃ x y : ByteString, x.length = l ∧ y.length = l ∧
      val x = val (s.B a) / val (s.B b) ∧ val y = val (s.B a) % val (s.B b) ∧
      (q ≠ r → Answers (.bdivmod q r a b) s (WritesTwoBignums q x r y s)) ∧
      Answers (.bdiv q a b) s (WritesBignum q x s) ∧ Answers (.bmod q a b) s (WritesBignum q y s)) ∧
    (val (s.B b) = 0 → Answers (.bdivmod q r a b) s (Raises .divisionByZero s) ∧
      Answers (.bdiv q a b) s (Raises .divisionByZero s) ∧ Answers (.bmod q a b) s (Raises .divisionByZero s))

/-- R658: quotient times divisor plus remainder is the dividend, for every pair of lengths; BSUB undoes BADD when the second
operand is not the longer. -/
def Obligations.DivisionAndSumRoundTrips : Prop :=
  (∀ (d a b : BReg) (s : State), val (s.B b) ≠ 0 → ∃ t t', exec (.bdiv d a b) s = .next t ∧ exec (.bmod d a b) s = .next t' ∧
    val (t.B d) * val (s.B b) + val (t'.B d) = val (s.B a) ∧ val (t'.B d) < val (s.B b)) ∧
  (∀ (d e a b : BReg) (s : State), (s.B b).length ≤ (s.B a).length → d ≠ b →
    ∃ t t', exec (.badd d a b) s = .next t ∧ exec (.bsub e d b) t = .next t' ∧ t'.B e = s.B a)

/-- R506, R657: the bit-serial restoring dividers reach the quotient and the remainder. -/
def Obligations.DividerRoundsGiveTheQuotient : Prop :=
  (∀ a b : Nat, a < 2 ^ 32 → b ≠ 0 → sdivmod a b = (a / b, a % b)) ∧
  (∀ a b : ByteString, val b ≠ 0 → bdivmod a b = (val a / val b, val a % val b))

/-- R656, R705: double-and-add reaches the exact product, and square-and-multiply reaches the power, in the fixed number of
rounds, whenever the rounds cover the exponent. -/
def Obligations.ProductAndPowerRounds : Prop :=
  (∀ a b : ByteString, mulRounds a b = val a * val b) ∧
  (∀ rounds a e m : Nat, m ≠ 0 → e < 2 ^ rounds → powMod rounds a e m = a ^ e % m)

/-! ## Exponentiation and gcd (46_bignum_exp_gcd.md) -/

/-- R700, R701: the power modulo 2^(8n), or modulo val(Bm) at its length; CapacityExceeded and DivisionByZero. -/
def Obligations.PowerCommands : Prop :=
  ∀ (d a e m : BReg) (n : SReg) (s : State),
    let len := (s.S n).toNat
    EncodedAs (.bpow d a e n) 0x70 .R4 [d.field, a.field, e.field, n.field] ∧
    EncodedAs (.bmodpow d a e m) 0x71 .R4 [d.field, a.field, e.field, m.field] ∧
    (len ≤ s.cfg.bnMaxBytes →
      Answers (.bpow d a e n) s (WritesBignum d (enc len ((val (s.B a) ^ val (s.B e) : Nat) : Int)) s)) ∧
    (s.cfg.bnMaxBytes < len → Answers (.bpow d a e n) s (Raises .capacityExceeded s)) ∧
    (val (s.B m) ≠ 0 → Answers (.bmodpow d a e m) s (fun t => WritesBignum d (t.B d) s t ∧
      (t.B d).length = (s.B m).length ∧ val (t.B d) = val (s.B a) ^ val (s.B e) % val (s.B m))) ∧
    (val (s.B m) = 0 → Answers (.bmodpow d a e m) s (Raises .divisionByZero s))

/-- R702, R703: the gcd, and the canonical coefficient of the first operand, at the longer length; both always fit. -/
def Obligations.GcdCommands : Prop :=
  ∀ (u g a b : BReg) (s : State),
    let l := max (s.B a).length (s.B b).length
    (u ≠ g → EncodedAs (.bxgcd u g a b) 0x79 .R4 [u.field, g.field, a.field, b.field]) ∧
    EncodedAs (.bgcd g a b) 0x78 .R3 [g.field, a.field, b.field] ∧
    ∃ x y : ByteString, x.length = l ∧ y.length = l ∧ val y = Nat.gcd (val (s.B a)) (val (s.B b)) ∧
      IsCanonical (val (s.B a)) (val (s.B b)) (val x) ∧
      Answers (.bgcd g a b) s (WritesBignum g y s) ∧
      (u ≠ g → Answers (.bxgcd u g a b) s (WritesTwoBignums u x g y s))

/-- R710: the coefficient the model computes is the canonical one, the only one, and a Bezout coefficient. -/
def Obligations.CanonicalCoefficientIsUnique : Prop :=
  ∀ a b : Nat, IsCanonical a b (canonU a b) ∧ (∀ u, IsCanonical a b u → u = canonU a b) ∧
    ∃ v : Int, (canonU a b : Int) * a + v * b = (Nat.gcd a b : Int)

/-- R704: DivisionByZero for a zero modulus, then InverseNotFound if the gcd is not 1, else the inverse in [0, m). -/
def Obligations.BmodinvFindsTheInverse : Prop :=
  ∀ (d x m : BReg) (s : State),
    EncodedAs (.bmodinv d x m) 0x7A .R3 [d.field, x.field, m.field] ∧
    (val (s.B m) = 0 → Answers (.bmodinv d x m) s (Raises .divisionByZero s)) ∧
    (val (s.B m) ≠ 0 → Nat.gcd (val (s.B x)) (val (s.B m)) ≠ 1 →
      Answers (.bmodinv d x m) s (Raises .inverseNotFound s)) ∧
    (val (s.B m) ≠ 0 → Nat.gcd (val (s.B x)) (val (s.B m)) = 1 →
      Answers (.bmodinv d x m) s (fun t => WritesBignum d (t.B d) s t ∧
        (t.B d).length = max (s.B x).length (s.B m).length ∧ val (t.B d) < val (s.B m) ∧
        val (t.B d) * val (s.B x) % val (s.B m) = 1 % val (s.B m)))
end

