-- ==== Sys2Proof/Laws/Bytes.lean ====
section
/-! SUPPORT. The laws of val and enc (00_scope.md R13). -/

namespace Sys2Proof.Machine

@[simp] theorem val_nil : val [] = 0 := rfl

theorem foldl_val (x : ByteString) (n : Nat) :
    x.foldl (fun acc b => acc * 256 + b.toNat) n = n * 256 ^ x.length + val x := by
  induction x generalizing n with
  | nil => simp [val]
  | cons b x ih =>
    simp only [List.foldl_cons, List.length_cons, val]
    rw [ih, ih (0 * 256 + b.toNat)]
    ring

theorem val_cons (b : Byte) (x : ByteString) : val (b :: x) = b.toNat * 256 ^ x.length + val x := by
  simp only [val, List.foldl_cons]
  rw [foldl_val]
  simp [val]

theorem val_append (x y : ByteString) : val (x ++ y) = val x * 256 ^ y.length + val y := by
  simp only [val, List.foldl_append]
  rw [foldl_val]
  simp [val]

theorem val_lt (x : ByteString) : val x < 256 ^ x.length := by
  induction x with
  | nil => simp
  | cons b x ih =>
    rw [val_cons, List.length_cons, pow_succ]
    have := b.isLt
    nlinarith

theorem pow_eight_mul (l : Nat) : 2 ^ (8 * l) = 256 ^ l := by
  rw [pow_mul]; norm_num

theorem val_lt_two_pow (x : ByteString) : val x < 2 ^ (8 * x.length) := by
  rw [pow_eight_mul]; exact val_lt x

@[simp] theorem enc_length (l : Nat) (v : Int) : (enc l v).length = l := by
  induction l with
  | zero => rfl
  | succ l ih => simp [enc, ih]

@[simp] theorem enc_zero (v : Int) : enc 0 v = [] := rfl

/-- The high digit times its weight plus the low part is the remainder at the next weight. -/
theorem digit_add_emod (v : Int) (p : Nat) (hp : 0 < p) : v / p % 256 * p + v % p = v % (p * 256 : Nat) := by
  have hp' : (0 : Int) < p := by exact_mod_cast hp
  have h1 := Int.mul_ediv_add_emod v p
  have h2 := Int.mul_ediv_add_emod (v / p) 256
  have hr := Int.emod_nonneg v hp'.ne'
  have hr' := Int.emod_lt_of_pos v hp'
  have hd := Int.emod_nonneg (v / p) (show (256 : Int) ≠ 0 by norm_num)
  have hd' := Int.emod_lt_of_pos (v / p) (show (0 : Int) < 256 by norm_num)
  have hv : v = (v / p % 256 * p + v % p) + (p * 256 : Nat) * (v / p / 256) := by
    push_cast
    calc v = p * (v / p) + v % p := h1.symm
      _ = p * (256 * (v / p / 256) + v / p % 256) + v % p := by rw [h2]
      _ = _ := by ring
  conv_rhs => rw [hv]
  rw [Int.add_mul_emod_self_left]
  exact (Int.emod_eq_of_lt (by positivity) (by push_cast; nlinarith)).symm

/-- `val(enc(L, v)) = v mod 2^(8L)` (R13). -/
theorem val_enc (l : Nat) (v : Int) : (val (enc l v) : Int) = v % ((2 ^ (8 * l) : Nat) : Int) := by
  induction l with
  | zero => simp
  | succ l ih =>
    have h : ((BitVec.ofInt 8 (v / ((2 ^ (8 * l) : Nat) : Int))).toNat : Int) = v / ((2 ^ (8 * l) : Nat) : Int) % 256 := by
      rw [BitVec.toNat_ofInt]
      have : (0 : Int) ≤ v / ((2 ^ (8 * l) : Nat) : Int) % ((2 ^ 8 : Nat) : Int) := Int.emod_nonneg _ (by norm_num)
      rw [Int.toNat_of_nonneg this]
      norm_num
    have hp : 2 ^ (8 * (l + 1)) = 2 ^ (8 * l) * 256 := by rw [pow_eight_mul, pow_eight_mul, pow_succ]
    rw [enc, val_cons, enc_length, ← pow_eight_mul, Nat.cast_add, Nat.cast_mul, h, ih, hp]
    exact digit_add_emod v _ (by positivity)

/-- The value of an encoded natural number. -/
theorem val_enc_nat (l n : Nat) : val (enc l (n : Int)) = n % 2 ^ (8 * l) := by
  have := val_enc l n
  exact_mod_cast this

/-- A natural number that fits is encoded exactly. -/
theorem val_enc_of_lt {l n : Nat} (h : n < 2 ^ (8 * l)) : val (enc l (n : Int)) = n := by
  rw [val_enc_nat, Nat.mod_eq_of_lt h]

/-- Byte strings of one length are equal when their values are. -/
theorem eq_of_val_eq {x y : ByteString} (hl : x.length = y.length) (hv : val x = val y) : x = y := by
  induction x generalizing y with
  | nil => cases y <;> simp_all
  | cons b x ih =>
    cases y with
    | nil => simp at hl
    | cons c y =>
      have hl' : x.length = y.length := by simpa using hl
      rw [val_cons, val_cons, ← hl'] at hv
      have hx := val_lt x
      have hy := val_lt y
      rw [← hl'] at hy
      have hb : b.toNat = c.toNat := by nlinarith
      rw [hb] at hv
      rw [BitVec.eq_of_toNat_eq hb, ih hl' (by omega)]

/-- Encoding a string's own value at its own length gives the string back. -/
theorem enc_val (x : ByteString) : enc x.length (val x : Int) = x :=
  eq_of_val_eq (by simp) (val_enc_of_lt (val_lt_two_pow x))

/-- Encodings at one length are equal when the values agree modulo 2^(8L). -/
theorem enc_congr {l : Nat} {v w : Int} (h : v % ((2 ^ (8 * l) : Nat) : Int) = w % ((2 ^ (8 * l) : Nat) : Int)) :
    enc l v = enc l w := by
  apply eq_of_val_eq (by simp)
  have := (val_enc l v).trans (h.trans (val_enc l w).symm)
  exact_mod_cast this

@[simp] theorem zeros_length (n : Nat) : (zeros n).length = n := by simp [zeros]

@[simp] theorem val_zeros (n : Nat) : val (zeros n) = 0 := by
  induction n with
  | zero => rfl
  | succ n ih => simpa [zeros, List.replicate_succ, val_cons] using ih

theorem enc_zeros (l : Nat) : enc l 0 = zeros l :=
  eq_of_val_eq (by simp) (by have := val_enc_nat l 0; simpa using this)

@[simp] theorem wordBytes_length (v : Word) : (wordBytes v).length = 4 := by simp [wordBytes]

/-- The bytes of a word make the word. -/
@[simp] theorem bytesWord_wordBytes (v : Word) : bytesWord (wordBytes v) = v := by
  have h : val (wordBytes v) = v.toNat := val_enc_of_lt (by have := v.isLt; simpa using this)
  simp [bytesWord, h]

/-- The bytes of a word, the most significant first. -/
theorem wordBytes_eq (v : Word) :
    wordBytes v = [v.extractLsb' 24 8, v.extractLsb' 16 8, v.extractLsb' 8 8, v.extractLsb' 0 8] := by
  have := v.isLt
  simp only [wordBytes, enc, List.cons.injEq, and_true]
  refine ⟨?_, ?_, ?_, ?_⟩ <;> apply BitVec.eq_of_toNat_eq <;>
    simp [BitVec.toNat_ofInt, Nat.shiftRight_eq_div_pow] <;> omega

/-- Both operands fit the longer length. -/
theorem val_lt_longer (x y : ByteString) :
    val x < 2 ^ (8 * max x.length y.length) ∧ val y < 2 ^ (8 * max x.length y.length) :=
  ⟨(val_lt_two_pow x).trans_le (Nat.pow_le_pow_right (by norm_num) (by omega)),
    (val_lt_two_pow y).trans_le (Nat.pow_le_pow_right (by norm_num) (by omega))⟩

/-- The sign bit is set exactly when the value is in the upper half of its range. -/
theorem signBit_eq (x : ByteString) : signBit x = decide (2 ^ (8 * x.length) ≤ 2 * val x) := by
  cases x with
  | nil => simp [signBit]
  | cons b x =>
    have := val_lt x
    simp only [signBit, BitVec.msb_eq_decide, val_cons, List.length_cons, pow_eight_mul]
    apply decide_eq_decide.2
    simp only [pow_succ]
    constructor
    · intro h; nlinarith
    · intro h
      by_contra hn
      have : b.toNat + 1 ≤ 128 := by omega
      nlinarith

end Sys2Proof.Machine
end

