-- ==== Sys2Proof/Laws/Decode.lean ====
section
/-! SUPPORT. The laws of the field positions and the reserved-bit check (30_encoding.md R301, R302, R308). -/

namespace Sys2Proof

/-! ## The bits of an assembled word -/

theorem fieldsWord_getLsbD (op : BitVec 8) (f1 f2 f3 f4 : BitVec 4) (i : Nat) :
    (fieldsWord op f1 f2 f3 f4).getLsbD i =
      if i < 8 then false else if i < 12 then f4.getLsbD (i - 8) else if i < 16 then f3.getLsbD (i - 12)
      else if i < 20 then f2.getLsbD (i - 16) else if i < 24 then f1.getLsbD (i - 20) else op.getLsbD (i - 24) := by
  show BitVec.getLsbD (w := 8 + 4 + 4 + 4 + 4 + 8) (op ++ f1 ++ f2 ++ f3 ++ f4 ++ 0#8) i = _
  simp only [BitVec.getLsbD_append, BitVec.getLsbD_zero, Nat.sub_sub]
  repeat' split
  all_goals first | rfl | omega

theorem immWord_getLsbD (op : BitVec 8) (f1 : BitVec 4) (imm : BitVec 16) (i : Nat) :
    (immWord op f1 imm).getLsbD i =
      if i < 16 then imm.getLsbD i else if i < 20 then false else if i < 24 then f1.getLsbD (i - 20)
      else op.getLsbD (i - 24) := by
  show BitVec.getLsbD (w := 8 + 4 + 4 + 16) (op ++ f1 ++ 0#4 ++ imm) i = _
  simp only [BitVec.getLsbD_append, BitVec.getLsbD_zero, Nat.sub_sub]
  repeat' split
  all_goals first | rfl | omega

/-! ## The fields of an assembled word -/

@[simp] theorem opField_fieldsWord (op : BitVec 8) (f1 f2 f3 f4 : BitVec 4) :
    opField (fieldsWord op f1 f2 f3 f4) = op := by
  apply BitVec.eq_of_getLsbD_eq
  intro i hi
  simp only [opField, BitVec.getLsbD_extractLsb', fieldsWord_getLsbD, hi, decide_true, Bool.true_and]
  interval_cases i <;> simp

@[simp] theorem f1Field_fieldsWord (op : BitVec 8) (f1 f2 f3 f4 : BitVec 4) :
    f1Field (fieldsWord op f1 f2 f3 f4) = f1 := by
  apply BitVec.eq_of_getLsbD_eq
  intro i hi
  simp only [f1Field, BitVec.getLsbD_extractLsb', fieldsWord_getLsbD, hi, decide_true, Bool.true_and]
  interval_cases i <;> simp

@[simp] theorem f2Field_fieldsWord (op : BitVec 8) (f1 f2 f3 f4 : BitVec 4) :
    f2Field (fieldsWord op f1 f2 f3 f4) = f2 := by
  apply BitVec.eq_of_getLsbD_eq
  intro i hi
  simp only [f2Field, BitVec.getLsbD_extractLsb', fieldsWord_getLsbD, hi, decide_true, Bool.true_and]
  interval_cases i <;> simp

@[simp] theorem f3Field_fieldsWord (op : BitVec 8) (f1 f2 f3 f4 : BitVec 4) :
    f3Field (fieldsWord op f1 f2 f3 f4) = f3 := by
  apply BitVec.eq_of_getLsbD_eq
  intro i hi
  simp only [f3Field, BitVec.getLsbD_extractLsb', fieldsWord_getLsbD, hi, decide_true, Bool.true_and]
  interval_cases i <;> simp

@[simp] theorem f4Field_fieldsWord (op : BitVec 8) (f1 f2 f3 f4 : BitVec 4) :
    f4Field (fieldsWord op f1 f2 f3 f4) = f4 := by
  apply BitVec.eq_of_getLsbD_eq
  intro i hi
  simp only [f4Field, BitVec.getLsbD_extractLsb', fieldsWord_getLsbD, hi, decide_true, Bool.true_and]
  interval_cases i <;> simp

@[simp] theorem opField_immWord (op : BitVec 8) (f1 : BitVec 4) (imm : BitVec 16) :
    opField (immWord op f1 imm) = op := by
  apply BitVec.eq_of_getLsbD_eq
  intro i hi
  simp only [opField, BitVec.getLsbD_extractLsb', immWord_getLsbD, hi, decide_true, Bool.true_and]
  interval_cases i <;> simp

@[simp] theorem f1Field_immWord (op : BitVec 8) (f1 : BitVec 4) (imm : BitVec 16) :
    f1Field (immWord op f1 imm) = f1 := by
  apply BitVec.eq_of_getLsbD_eq
  intro i hi
  simp only [f1Field, BitVec.getLsbD_extractLsb', immWord_getLsbD, hi, decide_true, Bool.true_and]
  interval_cases i <;> simp

@[simp] theorem immField_immWord (op : BitVec 8) (f1 : BitVec 4) (imm : BitVec 16) :
    immField (immWord op f1 imm) = imm := by
  apply BitVec.eq_of_getLsbD_eq
  intro i hi
  simp only [immField, BitVec.getLsbD_extractLsb', immWord_getLsbD, hi, decide_true, Bool.true_and, Nat.zero_add, if_true]

/-! ## The reserved-bit check, per format -/

@[simp] theorem reservedClean_N (op : BitVec 8) : reservedClean .N (fieldsWord op 0#4 0#4 0#4 0#4) = true := by
  simp only [reservedClean, opField_fieldsWord, beq_iff_eq]
  apply BitVec.eq_of_getLsbD_eq
  intro i hi
  simp only [BitVec.getLsbD_and, fieldsWord_getLsbD, Format.mask]
  interval_cases i <;> simp

@[simp] theorem reservedClean_R1 (op : BitVec 8) (f1 : BitVec 4) :
    reservedClean .R1 (fieldsWord op f1 0#4 0#4 0#4) = true := by
  simp only [reservedClean, opField_fieldsWord, beq_iff_eq]
  apply BitVec.eq_of_getLsbD_eq
  intro i hi
  simp only [BitVec.getLsbD_and, fieldsWord_getLsbD, Format.mask]
  interval_cases i <;> simp

@[simp] theorem reservedClean_R2 (op : BitVec 8) (f1 f2 : BitVec 4) :
    reservedClean .R2 (fieldsWord op f1 f2 0#4 0#4) = true := by
  simp only [reservedClean, opField_fieldsWord, beq_iff_eq]
  apply BitVec.eq_of_getLsbD_eq
  intro i hi
  simp only [BitVec.getLsbD_and, fieldsWord_getLsbD, Format.mask]
  interval_cases i <;> simp

@[simp] theorem reservedClean_R3 (op : BitVec 8) (f1 f2 f3 : BitVec 4) :
    reservedClean .R3 (fieldsWord op f1 f2 f3 0#4) = true := by
  simp only [reservedClean, opField_fieldsWord, beq_iff_eq]
  apply BitVec.eq_of_getLsbD_eq
  intro i hi
  simp only [BitVec.getLsbD_and, fieldsWord_getLsbD, Format.mask]
  interval_cases i <;> simp

@[simp] theorem reservedClean_R4 (op : BitVec 8) (f1 f2 f3 f4 : BitVec 4) :
    reservedClean .R4 (fieldsWord op f1 f2 f3 f4) = true := by
  simp only [reservedClean, opField_fieldsWord, beq_iff_eq]
  apply BitVec.eq_of_getLsbD_eq
  intro i hi
  simp only [BitVec.getLsbD_and, fieldsWord_getLsbD, Format.mask]
  interval_cases i <;> simp

@[simp] theorem reservedClean_I (op : BitVec 8) (f1 : BitVec 4) (imm : BitVec 16) :
    reservedClean .I (immWord op f1 imm) = true := by
  simp only [reservedClean, opField_immWord, beq_iff_eq]
  apply BitVec.eq_of_getLsbD_eq
  intro i hi
  simp only [BitVec.getLsbD_and, immWord_getLsbD, Format.mask]
  interval_cases i <;> simp

/-! ## Register fields -/

@[simp] theorem toSReg_field (r : SReg) : toSReg r.field = r := rfl

@[simp] theorem toBReg_field (r : BReg) : toBReg r.field = r := rfl

@[simp] theorem ofCode?_code (c : Cond) : Cond.ofCode? c.code = some c := by cases c <;> rfl

/-- What an accepted command says: no reserved bit is set and the command is the one read. -/
theorem acceptClean_ok {f : Format} {w : Word} {i j : Instr} (h : acceptClean f w i = .ok j) :
    reservedClean f w = true ∧ j = i := by
  unfold acceptClean at h
  split at h
  · exact ⟨‹_›, (Except.ok.inj h).symm⟩
  · cases h

theorem acceptWf_ok {f : Format} {w : Word} {i j : Instr} (h : acceptWf f w i = .ok j) :
    reservedClean f w = true ∧ i.wf = true ∧ j = i := by
  unfold acceptWf at h
  split at h
  · split at h
    · exact ⟨‹_›, ‹_›, (Except.ok.inj h).symm⟩
    · cases h
  · cases h

theorem acceptFtst_ok {w : Word} {j : Instr} (h : acceptFtst w = .ok j) :
    reservedClean .R2 w = true ∧ ∃ c, Cond.ofCode? (f2Field w) = some c ∧ j = .ftst (toSReg (f1Field w)) c := by
  unfold acceptFtst at h
  split at h
  · split at h
    · exact ⟨‹_›, _, ‹_›, (Except.ok.inj h).symm⟩
    · cases h
  · cases h

/-! ## Reading a legal word back -/

@[simp] theorem field_toSReg (c : BitVec 4) : (toSReg c).field = c := rfl

@[simp] theorem field_toBReg (c : BitVec 4) : (toBReg c).field = c := rfl

theorem code_ofCode? {c : BitVec 4} {k : Cond} (h : Cond.ofCode? c = some k) : k.code = c := by
  revert c k; decide

theorem extractLsb'_eq_bit {w v : Word} {a n i : Nat} (h : w.extractLsb' a n = v.extractLsb' a n) (ha : a ≤ i)
    (hn : i < a + n) : w.getLsbD i = v.getLsbD i := by
  have := congrArg (fun x => x.getLsbD (i - a)) h
  simpa [BitVec.getLsbD_extractLsb', show i - a < n by omega, show a + (i - a) = i by omega] using this

/-- Two words with the same fields are the same word. -/
theorem word_ext {w v : Word} (h0 : opField w = opField v) (h1 : f1Field w = f1Field v) (h2 : f2Field w = f2Field v)
    (h3 : f3Field w = f3Field v) (h4 : f4Field w = f4Field v) (hz : w.extractLsb' 0 8 = v.extractLsb' 0 8) : w = v := by
  apply BitVec.eq_of_getLsbD_eq
  intro i hi
  by_cases c : i < 8
  · exact extractLsb'_eq_bit hz (by omega) (by omega)
  by_cases c : i < 12
  · exact extractLsb'_eq_bit h4 (by omega) (by omega)
  by_cases c : i < 16
  · exact extractLsb'_eq_bit h3 (by omega) (by omega)
  by_cases c : i < 20
  · exact extractLsb'_eq_bit h2 (by omega) (by omega)
  by_cases c : i < 24
  · exact extractLsb'_eq_bit h1 (by omega) (by omega)
  · exact extractLsb'_eq_bit h0 (by omega) (by omega)

/-- A word that passes the check has no reserved bit set. -/
theorem reservedClean_bit {f : Format} {w : Word} (h : reservedClean f w = true) (k : Nat) (hk : k < 24)
    (hm : f.mask.getLsbD k = true) : w.getLsbD k = false := by
  simp only [reservedClean, beq_iff_eq] at h
  have := congrArg (fun x => x.getLsbD k) h
  simpa [hm, hk] using this

/-- A field that is reserved throughout is zero in a word that passes the check. -/
theorem reservedClean_field {f : Format} {w : Word} (h : reservedClean f w = true) (a n : Nat) (han : a + n ≤ 24)
    (hm : ∀ k, a ≤ k → k < a + n → f.mask.getLsbD k = true) : w.extractLsb' a n = 0 := by
  apply BitVec.eq_of_getLsbD_eq
  intro i hi
  have := reservedClean_bit h (a + i) (by omega) (hm _ (by omega) (by omega))
  simpa [hi] using this

@[simp] theorem zField_fieldsWord (op : BitVec 8) (f1 f2 f3 f4 : BitVec 4) :
    (fieldsWord op f1 f2 f3 f4).extractLsb' 0 8 = 0#8 := by
  apply BitVec.eq_of_getLsbD_eq
  intro i hi
  simp [fieldsWord_getLsbD, hi]

theorem fieldsWord_of_clean_N {op : BitVec 8} {w : Word} (ho : opField w = op) (hc : reservedClean .N w = true) :
    fieldsWord op 0 0 0 0 = w := by
  subst ho
  apply word_ext <;> simp
  · exact (reservedClean_field hc 20 4 (by omega) (fun k h1 h2 => by simp only [Format.mask]; interval_cases k <;> decide)).symm
  · exact (reservedClean_field hc 16 4 (by omega) (fun k h1 h2 => by simp only [Format.mask]; interval_cases k <;> decide)).symm
  · exact (reservedClean_field hc 12 4 (by omega) (fun k h1 h2 => by simp only [Format.mask]; interval_cases k <;> decide)).symm
  · exact (reservedClean_field hc 8 4 (by omega) (fun k h1 h2 => by simp only [Format.mask]; interval_cases k <;> decide)).symm
  · exact (reservedClean_field hc 0 8 (by omega) (fun k h1 h2 => by simp only [Format.mask]; interval_cases k <;> decide)).symm

theorem fieldsWord_of_clean_R1 {op : BitVec 8} {w : Word} (ho : opField w = op) (hc : reservedClean .R1 w = true) :
    fieldsWord op (f1Field w) 0 0 0 = w := by
  subst ho
  apply word_ext <;> simp
  · exact (reservedClean_field hc 16 4 (by omega) (fun k h1 h2 => by simp only [Format.mask]; interval_cases k <;> decide)).symm
  · exact (reservedClean_field hc 12 4 (by omega) (fun k h1 h2 => by simp only [Format.mask]; interval_cases k <;> decide)).symm
  · exact (reservedClean_field hc 8 4 (by omega) (fun k h1 h2 => by simp only [Format.mask]; interval_cases k <;> decide)).symm
  · exact (reservedClean_field hc 0 8 (by omega) (fun k h1 h2 => by simp only [Format.mask]; interval_cases k <;> decide)).symm

theorem fieldsWord_of_clean_R2 {op : BitVec 8} {w : Word} (ho : opField w = op) (hc : reservedClean .R2 w = true) :
    fieldsWord op (f1Field w) (f2Field w) 0 0 = w := by
  subst ho
  apply word_ext <;> simp
  · exact (reservedClean_field hc 12 4 (by omega) (fun k h1 h2 => by simp only [Format.mask]; interval_cases k <;> decide)).symm
  · exact (reservedClean_field hc 8 4 (by omega) (fun k h1 h2 => by simp only [Format.mask]; interval_cases k <;> decide)).symm
  · exact (reservedClean_field hc 0 8 (by omega) (fun k h1 h2 => by simp only [Format.mask]; interval_cases k <;> decide)).symm

theorem fieldsWord_of_clean_R3 {op : BitVec 8} {w : Word} (ho : opField w = op) (hc : reservedClean .R3 w = true) :
    fieldsWord op (f1Field w) (f2Field w) (f3Field w) 0 = w := by
  subst ho
  apply word_ext <;> simp
  · exact (reservedClean_field hc 8 4 (by omega) (fun k h1 h2 => by simp only [Format.mask]; interval_cases k <;> decide)).symm
  · exact (reservedClean_field hc 0 8 (by omega) (fun k h1 h2 => by simp only [Format.mask]; interval_cases k <;> decide)).symm

theorem fieldsWord_of_clean_R4 {op : BitVec 8} {w : Word} (ho : opField w = op) (hc : reservedClean .R4 w = true) :
    fieldsWord op (f1Field w) (f2Field w) (f3Field w) (f4Field w) = w := by
  subst ho
  apply word_ext <;> simp
  · exact (reservedClean_field hc 0 8 (by omega) (fun k h1 h2 => by simp only [Format.mask]; interval_cases k <;> decide)).symm

theorem immWord_of_clean {op : BitVec 8} {w : Word} (ho : opField w = op) (hc : reservedClean .I w = true) :
    immWord op (f1Field w) (immField w) = w := by
  subst ho
  apply BitVec.eq_of_getLsbD_eq
  intro i hi
  rw [immWord_getLsbD]
  split
  · simp [immField, *]
  split
  · exact (reservedClean_bit hc i (by omega) (by simp only [Format.mask]; interval_cases i <;> simp_all)).symm
  split
  · simp [f1Field, show i - 20 < 4 by omega, show 20 + (i - 20) = i by omega]
  · simp [opField, show i - 24 < 8 by omega, show 24 + (i - 24) = i by omega]

end Sys2Proof
end

