-- ==== Sys2Proof/Laws/Memory.lean ====
section
/-! SUPPORT. The laws of the memory cells: read after write, other places unchanged, and the canonical form kept by every
memory operation. -/

namespace Sys2Proof.Machine

/-! ## One cell -/

@[simp] theorem cellGet_cellSet_same {α : Type} (k : Nat) (v : α) (m : List (Nat × α)) :
    cellGet k (cellSet k v m) = some v := by
  induction m with
  | nil => simp [cellSet, cellGet]
  | cons c m ih =>
    simp only [cellSet]
    split
    · simp [cellGet]
    · split
      · simp [cellGet]
      · simp [cellGet, *]

theorem cellGet_cellSet_ne {α : Type} {k j : Nat} (v : α) (m : List (Nat × α)) (h : j ≠ k) :
    cellGet j (cellSet k v m) = cellGet j m := by
  induction m with
  | nil => simp [cellSet, cellGet, h]
  | cons c m ih =>
    simp only [cellSet]
    split
    · simp [cellGet, h]
    · split
      · rename_i hk
        simp [cellGet, h, ← hk]
      · simp [cellGet, ih]

theorem cellSet_mem {α : Type} {k : Nat} {v : α} {m : List (Nat × α)} {c : Nat × α} (h : c ∈ cellSet k v m) :
    c = (k, v) ∨ c ∈ m := by
  induction m with
  | nil => simpa [cellSet] using h
  | cons d m ih =>
    simp only [cellSet] at h
    split at h
    · simpa using h
    · split at h
      · rcases List.mem_cons.1 h with h | h
        · exact .inl h
        · exact .inr (List.mem_cons_of_mem _ h)
      · rcases List.mem_cons.1 h with h | h
        · exact .inr (h ▸ List.mem_cons_self)
        · exact (ih h).imp_right (List.mem_cons_of_mem _)

/-- Setting a cell keeps the indexes strictly rising. -/
theorem cellSet_sorted {α : Type} (k : Nat) (v : α) (m : List (Nat × α)) (h : (m.map Prod.fst).Pairwise (· < ·)) :
    ((cellSet k v m).map Prod.fst).Pairwise (· < ·) := by
  induction m with
  | nil => simp [cellSet]
  | cons c m ih =>
    obtain ⟨j, w⟩ := c
    simp only [List.map_cons, List.pairwise_cons] at h
    simp only [cellSet]
    split
    · rename_i hk
      simp only [List.map_cons, List.pairwise_cons]
      refine ⟨fun a ha => ?_, h.1, h.2⟩
      rcases List.mem_cons.1 ha with rfl | ha
      · exact hk
      · exact hk.trans (h.1 a ha)
    · split
      · rename_i hk
        subst hk
        simpa using h
      · simp only [List.map_cons, List.pairwise_cons]
        refine ⟨fun a ha => ?_, ih h.2⟩
        obtain ⟨d, hd, rfl⟩ := List.mem_map.1 ha
        rcases cellSet_mem hd with rfl | hd
        · show j < k; omega
        · exact h.1 _ (List.mem_map.2 ⟨d, hd, rfl⟩)

/-! ## Many cells -/

theorem writeCells_sorted (a : Nat) (x : ByteString) (m : Memory) (h : Memory.wf m) : Memory.wf (writeCells a x m) := by
  induction x generalizing a m with
  | nil => exact h
  | cons b x ih => exact ih _ _ (cellSet_sorted a b m h)

theorem writeCells_mem {a : Nat} {x : ByteString} {m : Memory} {c : Host.Cell} (h : c ∈ writeCells a x m) :
    (a ≤ c.1 ∧ c.1 < a + x.length) ∨ c ∈ m := by
  induction x generalizing a m with
  | nil => exact .inr h
  | cons b x ih =>
    rcases ih h with h | h
    · simp only [List.length_cons]; omega
    · rcases cellSet_mem h with rfl | h
      · simp
      · exact .inr h

theorem cellGet_writeCells_outside {a j : Nat} (x : ByteString) (m : Memory) (h : j < a ∨ a + x.length ≤ j) :
    cellGet j (writeCells a x m) = cellGet j m := by
  induction x generalizing a m with
  | nil => rfl
  | cons b x ih =>
    simp only [List.length_cons] at h
    rw [writeCells, ih _ (by omega), cellGet_cellSet_ne _ _ (by omega)]

theorem cellGet_writeCells_inside {a : Nat} (x : ByteString) (m : Memory) (k : Nat) (h : k < x.length) :
    cellGet (a + k) (writeCells a x m) = some x[k] := by
  induction x generalizing a m k with
  | nil => simp at h
  | cons b x ih =>
    cases k with
    | zero => rw [writeCells, cellGet_writeCells_outside _ _ (by omega)]; simp
    | succ k =>
      have := ih (a := a + 1) (m := cellSet a b m) k (by simpa using h)
      rw [writeCells, ← Nat.add_right_comm a 1 k |>.trans (Nat.add_assoc a k 1)]
      simpa using this

/-! ## The machine's memories -/

/-- The canonical form at reset. -/
theorem resetWith_memory_wf (c : Config) :
    Memory.wf (State.resetWith c).dmem ∧ InstrMemory.wf (State.resetWith c).imem := by
  exact ⟨List.Pairwise.nil, List.Pairwise.nil⟩

/-- Every store to DMEM keeps the canonical form. -/
theorem memWrite_wf (s : State) (a : Nat) (x : ByteString) (h : Memory.wf s.dmem) : Memory.wf (s.memWrite a x).dmem :=
  writeCells_sorted a x s.dmem h

/-- Every write of IMEM keeps the canonical form. -/
theorem setImemWord_wf (s : State) (i : Nat) (w : Word) (h : InstrMemory.wf s.imem) :
    InstrMemory.wf (s.setImemWord i w).imem :=
  cellSet_sorted i w s.imem h

/-- A byte just stored reads back. -/
theorem dmemByte_memWrite_inside (s : State) (a : Nat) (x : ByteString) (k : Nat) (h : k < x.length) :
    (s.memWrite a x).dmemByte (a + k) = x[k] := by
  simp [State.dmemByte, State.memWrite, cellGet_writeCells_inside x s.dmem k h]

/-- A byte outside the stored range reads as before. -/
theorem dmemByte_memWrite_outside (s : State) {a j : Nat} (x : ByteString) (h : j < a ∨ a + x.length ≤ j) :
    (s.memWrite a x).dmemByte j = s.dmemByte j := by
  simp [State.dmemByte, State.memWrite, cellGet_writeCells_outside x s.dmem h]

/-- A word just written to IMEM reads back; the others read as before. -/
@[simp] theorem imemWord_setImemWord_same (s : State) (i : Nat) (w : Word) : (s.setImemWord i w).imemWord i = w := by
  simp [State.imemWord, State.setImemWord]

theorem imemWord_setImemWord_ne (s : State) {i j : Nat} (w : Word) (h : j ≠ i) :
    (s.setImemWord i w).imemWord j = s.imemWord j := by
  simp [State.imemWord, State.setImemWord, cellGet_cellSet_ne w s.imem h]

@[simp] theorem memRead_length (s : State) (a n : Nat) : (s.memRead a n).length = n := by
  simp [State.memRead]

theorem memRead_getElem (s : State) (a n k : Nat) (h : k < (s.memRead a n).length) :
    (s.memRead a n)[k] = s.dmemByte (a + k) := by
  simp [State.memRead]

/-- Reading a stored range gives the stored string. -/
theorem memRead_memWrite (s : State) (a : Nat) (x : ByteString) : (s.memWrite a x).memRead a x.length = x := by
  apply List.ext_getElem (by simp)
  intro k h _
  rw [memRead_getElem, dmemByte_memWrite_inside s a x k (by simpa using h)]

end Sys2Proof.Machine
end

