-- ==== Sys2Proof/Laws/State.lean ====
section
/-! SUPPORT. One lemma per field of State per update, and what reading a register or a memory gives after an update. -/

namespace Sys2Proof.Machine

/-! ## Fields after updates -/

@[simp] theorem State.setS_cfg (s : State) (r : SReg) (v : Word) : (s.setS r v).cfg = s.cfg := rfl
@[simp] theorem State.setS_sreg (s : State) (r : SReg) (v : Word) : (s.setS r v).sreg = s.sreg.set r.idx v := rfl
@[simp] theorem State.setS_breg (s : State) (r : SReg) (v : Word) : (s.setS r v).breg = s.breg := rfl
@[simp] theorem State.setS_flag (s : State) (r : SReg) (v : Word) : (s.setS r v).flag = s.flag := rfl
@[simp] theorem State.setS_pc (s : State) (r : SReg) (v : Word) : (s.setS r v).pc = s.pc := rfl
@[simp] theorem State.setS_irqEn (s : State) (r : SReg) (v : Word) : (s.setS r v).irqEn = s.irqEn := rfl
@[simp] theorem State.setS_busy (s : State) (r : SReg) (v : Word) : (s.setS r v).busy = s.busy := rfl
@[simp] theorem State.setS_done (s : State) (r : SReg) (v : Word) : (s.setS r v).done = s.done := rfl
@[simp] theorem State.setS_err (s : State) (r : SReg) (v : Word) : (s.setS r v).err = s.err := rfl
@[simp] theorem State.setS_cause (s : State) (r : SReg) (v : Word) : (s.setS r v).cause = s.cause := rfl
@[simp] theorem State.setS_imem (s : State) (r : SReg) (v : Word) : (s.setS r v).imem = s.imem := rfl
@[simp] theorem State.setS_dmem (s : State) (r : SReg) (v : Word) : (s.setS r v).dmem = s.dmem := rfl
@[simp] theorem State.setS_epoch (s : State) (r : SReg) (v : Word) : (s.setS r v).epoch = s.epoch := rfl
@[simp] theorem State.setS_draws (s : State) (r : SReg) (v : Word) : (s.setS r v).draws = s.draws := rfl
@[simp] theorem State.setS_schedule (s : State) (r : SReg) (v : Word) : (s.setS r v).schedule = s.schedule := rfl
@[simp] theorem State.setS_replies (s : State) (r : SReg) (v : Word) : (s.setS r v).replies = s.replies := rfl

@[simp] theorem State.setB_cfg (s : State) (r : BReg) (x : ByteString) : (s.setB r x).cfg = s.cfg := rfl
@[simp] theorem State.setB_sreg (s : State) (r : BReg) (x : ByteString) : (s.setB r x).sreg = s.sreg := rfl
@[simp] theorem State.setB_breg (s : State) (r : BReg) (x : ByteString) : (s.setB r x).breg = s.breg.set r.idx x := rfl
@[simp] theorem State.setB_flag (s : State) (r : BReg) (x : ByteString) : (s.setB r x).flag = s.flag := rfl
@[simp] theorem State.setB_pc (s : State) (r : BReg) (x : ByteString) : (s.setB r x).pc = s.pc := rfl
@[simp] theorem State.setB_irqEn (s : State) (r : BReg) (x : ByteString) : (s.setB r x).irqEn = s.irqEn := rfl
@[simp] theorem State.setB_busy (s : State) (r : BReg) (x : ByteString) : (s.setB r x).busy = s.busy := rfl
@[simp] theorem State.setB_done (s : State) (r : BReg) (x : ByteString) : (s.setB r x).done = s.done := rfl
@[simp] theorem State.setB_err (s : State) (r : BReg) (x : ByteString) : (s.setB r x).err = s.err := rfl
@[simp] theorem State.setB_cause (s : State) (r : BReg) (x : ByteString) : (s.setB r x).cause = s.cause := rfl
@[simp] theorem State.setB_imem (s : State) (r : BReg) (x : ByteString) : (s.setB r x).imem = s.imem := rfl
@[simp] theorem State.setB_dmem (s : State) (r : BReg) (x : ByteString) : (s.setB r x).dmem = s.dmem := rfl
@[simp] theorem State.setB_epoch (s : State) (r : BReg) (x : ByteString) : (s.setB r x).epoch = s.epoch := rfl
@[simp] theorem State.setB_draws (s : State) (r : BReg) (x : ByteString) : (s.setB r x).draws = s.draws := rfl
@[simp] theorem State.setB_schedule (s : State) (r : BReg) (x : ByteString) : (s.setB r x).schedule = s.schedule := rfl
@[simp] theorem State.setB_replies (s : State) (r : BReg) (x : ByteString) : (s.setB r x).replies = s.replies := rfl

@[simp] theorem State.setFlag_cfg (s : State) (b : Bool) : (s.setFlag b).cfg = s.cfg := rfl
@[simp] theorem State.setFlag_sreg (s : State) (b : Bool) : (s.setFlag b).sreg = s.sreg := rfl
@[simp] theorem State.setFlag_breg (s : State) (b : Bool) : (s.setFlag b).breg = s.breg := rfl
@[simp] theorem State.setFlag_flag (s : State) (b : Bool) : (s.setFlag b).flag = b := rfl
@[simp] theorem State.setFlag_pc (s : State) (b : Bool) : (s.setFlag b).pc = s.pc := rfl
@[simp] theorem State.setFlag_irqEn (s : State) (b : Bool) : (s.setFlag b).irqEn = s.irqEn := rfl
@[simp] theorem State.setFlag_busy (s : State) (b : Bool) : (s.setFlag b).busy = s.busy := rfl
@[simp] theorem State.setFlag_done (s : State) (b : Bool) : (s.setFlag b).done = s.done := rfl
@[simp] theorem State.setFlag_err (s : State) (b : Bool) : (s.setFlag b).err = s.err := rfl
@[simp] theorem State.setFlag_cause (s : State) (b : Bool) : (s.setFlag b).cause = s.cause := rfl
@[simp] theorem State.setFlag_imem (s : State) (b : Bool) : (s.setFlag b).imem = s.imem := rfl
@[simp] theorem State.setFlag_dmem (s : State) (b : Bool) : (s.setFlag b).dmem = s.dmem := rfl
@[simp] theorem State.setFlag_epoch (s : State) (b : Bool) : (s.setFlag b).epoch = s.epoch := rfl
@[simp] theorem State.setFlag_draws (s : State) (b : Bool) : (s.setFlag b).draws = s.draws := rfl
@[simp] theorem State.setFlag_schedule (s : State) (b : Bool) : (s.setFlag b).schedule = s.schedule := rfl
@[simp] theorem State.setFlag_replies (s : State) (b : Bool) : (s.setFlag b).replies = s.replies := rfl

@[simp] theorem State.memWrite_cfg (s : State) (a : Nat) (x : ByteString) : (s.memWrite a x).cfg = s.cfg := rfl
@[simp] theorem State.memWrite_sreg (s : State) (a : Nat) (x : ByteString) : (s.memWrite a x).sreg = s.sreg := rfl
@[simp] theorem State.memWrite_breg (s : State) (a : Nat) (x : ByteString) : (s.memWrite a x).breg = s.breg := rfl
@[simp] theorem State.memWrite_flag (s : State) (a : Nat) (x : ByteString) : (s.memWrite a x).flag = s.flag := rfl
@[simp] theorem State.memWrite_pc (s : State) (a : Nat) (x : ByteString) : (s.memWrite a x).pc = s.pc := rfl
@[simp] theorem State.memWrite_irqEn (s : State) (a : Nat) (x : ByteString) : (s.memWrite a x).irqEn = s.irqEn := rfl
@[simp] theorem State.memWrite_busy (s : State) (a : Nat) (x : ByteString) : (s.memWrite a x).busy = s.busy := rfl
@[simp] theorem State.memWrite_done (s : State) (a : Nat) (x : ByteString) : (s.memWrite a x).done = s.done := rfl
@[simp] theorem State.memWrite_err (s : State) (a : Nat) (x : ByteString) : (s.memWrite a x).err = s.err := rfl
@[simp] theorem State.memWrite_cause (s : State) (a : Nat) (x : ByteString) : (s.memWrite a x).cause = s.cause := rfl
@[simp] theorem State.memWrite_imem (s : State) (a : Nat) (x : ByteString) : (s.memWrite a x).imem = s.imem := rfl
@[simp] theorem State.memWrite_dmem (s : State) (a : Nat) (x : ByteString) : (s.memWrite a x).dmem = writeCells a x s.dmem := rfl
@[simp] theorem State.memWrite_epoch (s : State) (a : Nat) (x : ByteString) : (s.memWrite a x).epoch = s.epoch := rfl
@[simp] theorem State.memWrite_draws (s : State) (a : Nat) (x : ByteString) : (s.memWrite a x).draws = s.draws := rfl
@[simp] theorem State.memWrite_schedule (s : State) (a : Nat) (x : ByteString) : (s.memWrite a x).schedule = s.schedule := rfl
@[simp] theorem State.memWrite_replies (s : State) (a : Nat) (x : ByteString) : (s.memWrite a x).replies = s.replies := rfl

@[simp] theorem State.setImemWord_cfg (s : State) (i : Nat) (w : Word) : (s.setImemWord i w).cfg = s.cfg := rfl
@[simp] theorem State.setImemWord_sreg (s : State) (i : Nat) (w : Word) : (s.setImemWord i w).sreg = s.sreg := rfl
@[simp] theorem State.setImemWord_breg (s : State) (i : Nat) (w : Word) : (s.setImemWord i w).breg = s.breg := rfl
@[simp] theorem State.setImemWord_flag (s : State) (i : Nat) (w : Word) : (s.setImemWord i w).flag = s.flag := rfl
@[simp] theorem State.setImemWord_pc (s : State) (i : Nat) (w : Word) : (s.setImemWord i w).pc = s.pc := rfl
@[simp] theorem State.setImemWord_irqEn (s : State) (i : Nat) (w : Word) : (s.setImemWord i w).irqEn = s.irqEn := rfl
@[simp] theorem State.setImemWord_busy (s : State) (i : Nat) (w : Word) : (s.setImemWord i w).busy = s.busy := rfl
@[simp] theorem State.setImemWord_done (s : State) (i : Nat) (w : Word) : (s.setImemWord i w).done = s.done := rfl
@[simp] theorem State.setImemWord_err (s : State) (i : Nat) (w : Word) : (s.setImemWord i w).err = s.err := rfl
@[simp] theorem State.setImemWord_cause (s : State) (i : Nat) (w : Word) : (s.setImemWord i w).cause = s.cause := rfl
@[simp] theorem State.setImemWord_imem (s : State) (i : Nat) (w : Word) : (s.setImemWord i w).imem = cellSet i w s.imem := rfl
@[simp] theorem State.setImemWord_dmem (s : State) (i : Nat) (w : Word) : (s.setImemWord i w).dmem = s.dmem := rfl
@[simp] theorem State.setImemWord_epoch (s : State) (i : Nat) (w : Word) : (s.setImemWord i w).epoch = s.epoch := rfl
@[simp] theorem State.setImemWord_draws (s : State) (i : Nat) (w : Word) : (s.setImemWord i w).draws = s.draws := rfl
@[simp] theorem State.setImemWord_schedule (s : State) (i : Nat) (w : Word) : (s.setImemWord i w).schedule = s.schedule := rfl
@[simp] theorem State.setImemWord_replies (s : State) (i : Nat) (w : Word) : (s.setImemWord i w).replies = s.replies := rfl

@[simp] theorem State.advance_cfg (s : State) : (s.advance).cfg = s.cfg := rfl
@[simp] theorem State.advance_sreg (s : State) : (s.advance).sreg = s.sreg := rfl
@[simp] theorem State.advance_breg (s : State) : (s.advance).breg = s.breg := rfl
@[simp] theorem State.advance_flag (s : State) : (s.advance).flag = s.flag := rfl
@[simp] theorem State.advance_pc (s : State) : (s.advance).pc = s.pc + 1 := rfl
@[simp] theorem State.advance_irqEn (s : State) : (s.advance).irqEn = s.irqEn := rfl
@[simp] theorem State.advance_busy (s : State) : (s.advance).busy = s.busy := rfl
@[simp] theorem State.advance_done (s : State) : (s.advance).done = s.done := rfl
@[simp] theorem State.advance_err (s : State) : (s.advance).err = s.err := rfl
@[simp] theorem State.advance_cause (s : State) : (s.advance).cause = s.cause := rfl
@[simp] theorem State.advance_imem (s : State) : (s.advance).imem = s.imem := rfl
@[simp] theorem State.advance_dmem (s : State) : (s.advance).dmem = s.dmem := rfl
@[simp] theorem State.advance_epoch (s : State) : (s.advance).epoch = s.epoch := rfl
@[simp] theorem State.advance_draws (s : State) : (s.advance).draws = s.draws := rfl
@[simp] theorem State.advance_schedule (s : State) : (s.advance).schedule = s.schedule := rfl
@[simp] theorem State.advance_replies (s : State) : (s.advance).replies = s.replies := rfl

@[simp] theorem State.trapped_cfg (s : State) (e : Exn) : (s.trapped e).cfg = s.cfg := rfl
@[simp] theorem State.trapped_sreg (s : State) (e : Exn) : (s.trapped e).sreg = s.sreg := rfl
@[simp] theorem State.trapped_breg (s : State) (e : Exn) : (s.trapped e).breg = s.breg := rfl
@[simp] theorem State.trapped_flag (s : State) (e : Exn) : (s.trapped e).flag = s.flag := rfl
@[simp] theorem State.trapped_pc (s : State) (e : Exn) : (s.trapped e).pc = s.pc := rfl
@[simp] theorem State.trapped_irqEn (s : State) (e : Exn) : (s.trapped e).irqEn = s.irqEn := rfl
@[simp] theorem State.trapped_busy (s : State) (e : Exn) : (s.trapped e).busy = false := rfl
@[simp] theorem State.trapped_done (s : State) (e : Exn) : (s.trapped e).done = s.done := rfl
@[simp] theorem State.trapped_err (s : State) (e : Exn) : (s.trapped e).err = true := rfl
@[simp] theorem State.trapped_cause (s : State) (e : Exn) : (s.trapped e).cause = e.code := rfl
@[simp] theorem State.trapped_imem (s : State) (e : Exn) : (s.trapped e).imem = s.imem := rfl
@[simp] theorem State.trapped_dmem (s : State) (e : Exn) : (s.trapped e).dmem = s.dmem := rfl
@[simp] theorem State.trapped_epoch (s : State) (e : Exn) : (s.trapped e).epoch = s.epoch := rfl
@[simp] theorem State.trapped_draws (s : State) (e : Exn) : (s.trapped e).draws = s.draws := rfl
@[simp] theorem State.trapped_schedule (s : State) (e : Exn) : (s.trapped e).schedule = s.schedule := rfl
@[simp] theorem State.trapped_replies (s : State) (e : Exn) : (s.trapped e).replies = s.replies := rfl

@[simp] theorem State.startRun_cfg (s : State) : (s.startRun).cfg = s.cfg := rfl
@[simp] theorem State.startRun_sreg (s : State) : (s.startRun).sreg = Vector.replicate 16 0#32 := rfl
@[simp] theorem State.startRun_breg (s : State) : (s.startRun).breg = Vector.replicate 16 [] := rfl
@[simp] theorem State.startRun_flag (s : State) : (s.startRun).flag = false := rfl
@[simp] theorem State.startRun_pc (s : State) : (s.startRun).pc = s.pc := rfl
@[simp] theorem State.startRun_irqEn (s : State) : (s.startRun).irqEn = s.irqEn := rfl
@[simp] theorem State.startRun_busy (s : State) : (s.startRun).busy = true := rfl
@[simp] theorem State.startRun_done (s : State) : (s.startRun).done = false := rfl
@[simp] theorem State.startRun_err (s : State) : (s.startRun).err = false := rfl
@[simp] theorem State.startRun_cause (s : State) : (s.startRun).cause = 0#4 := rfl
@[simp] theorem State.startRun_imem (s : State) : (s.startRun).imem = s.imem := rfl
@[simp] theorem State.startRun_dmem (s : State) : (s.startRun).dmem = s.dmem := rfl
@[simp] theorem State.startRun_epoch (s : State) : (s.startRun).epoch = s.epoch := rfl
@[simp] theorem State.startRun_draws (s : State) : (s.startRun).draws = s.draws := rfl
@[simp] theorem State.startRun_schedule (s : State) : (s.startRun).schedule = s.schedule := rfl
@[simp] theorem State.startRun_replies (s : State) : (s.startRun).replies = s.replies := rfl

/-! ## Registers after updates -/

theorem SReg.idx_injective {r r' : SReg} (h : (r.idx : Nat) = r'.idx) : r = r' := by
  cases r; cases r'; simp_all [Fin.ext_iff]

theorem BReg.idx_injective {r r' : BReg} (h : (r.idx : Nat) = r'.idx) : r = r' := by
  cases r; cases r'; simp_all [Fin.ext_iff]

@[simp] theorem State.S_setS_same (s : State) (r : SReg) (v : Word) : (s.setS r v).S r = v := by
  simp [State.S]

theorem State.S_setS_ne (s : State) {r r' : SReg} (v : Word) (h : r' ≠ r) : (s.setS r v).S r' = s.S r' := by
  have hi : (r.idx : Nat) ≠ r'.idx := fun e => h (SReg.idx_injective e).symm
  simp [State.S, Vector.getElem_set_ne, hi]

@[simp] theorem State.B_setB_same (s : State) (r : BReg) (x : ByteString) : (s.setB r x).B r = x := by
  simp [State.B]

theorem State.B_setB_ne (s : State) {r r' : BReg} (x : ByteString) (h : r' ≠ r) : (s.setB r x).B r' = s.B r' := by
  have hi : (r.idx : Nat) ≠ r'.idx := fun e => h (BReg.idx_injective e).symm
  simp [State.B, Vector.getElem_set_ne, hi]

@[simp] theorem State.B_setS (s : State) (r : SReg) (v : Word) (q : BReg) : (s.setS r v).B q = s.B q := rfl
@[simp] theorem State.dmemByte_setS (s : State) (r : SReg) (v : Word) (c : Nat) : (s.setS r v).dmemByte c = s.dmemByte c := rfl
@[simp] theorem State.memRead_setS (s : State) (r : SReg) (v : Word) (c l : Nat) : (s.setS r v).memRead c l = s.memRead c l := rfl
@[simp] theorem State.imemWord_setS (s : State) (r : SReg) (v : Word) (c : Nat) : (s.setS r v).imemWord c = s.imemWord c := rfl
@[simp] theorem State.S_setB (s : State) (r : BReg) (x : ByteString) (q : SReg) : (s.setB r x).S q = s.S q := rfl
@[simp] theorem State.dmemByte_setB (s : State) (r : BReg) (x : ByteString) (c : Nat) : (s.setB r x).dmemByte c = s.dmemByte c := rfl
@[simp] theorem State.memRead_setB (s : State) (r : BReg) (x : ByteString) (c l : Nat) : (s.setB r x).memRead c l = s.memRead c l := rfl
@[simp] theorem State.imemWord_setB (s : State) (r : BReg) (x : ByteString) (c : Nat) : (s.setB r x).imemWord c = s.imemWord c := rfl
@[simp] theorem State.B_setFlag (s : State) (b : Bool) (q : BReg) : (s.setFlag b).B q = s.B q := rfl
@[simp] theorem State.S_setFlag (s : State) (b : Bool) (q : SReg) : (s.setFlag b).S q = s.S q := rfl
@[simp] theorem State.dmemByte_setFlag (s : State) (b : Bool) (c : Nat) : (s.setFlag b).dmemByte c = s.dmemByte c := rfl
@[simp] theorem State.memRead_setFlag (s : State) (b : Bool) (c l : Nat) : (s.setFlag b).memRead c l = s.memRead c l := rfl
@[simp] theorem State.imemWord_setFlag (s : State) (b : Bool) (c : Nat) : (s.setFlag b).imemWord c = s.imemWord c := rfl
@[simp] theorem State.B_memWrite (s : State) (a : Nat) (x : ByteString) (q : BReg) : (s.memWrite a x).B q = s.B q := rfl
@[simp] theorem State.S_memWrite (s : State) (a : Nat) (x : ByteString) (q : SReg) : (s.memWrite a x).S q = s.S q := rfl
@[simp] theorem State.imemWord_memWrite (s : State) (a : Nat) (x : ByteString) (c : Nat) : (s.memWrite a x).imemWord c = s.imemWord c := rfl
@[simp] theorem State.B_setImemWord (s : State) (i : Nat) (w : Word) (q : BReg) : (s.setImemWord i w).B q = s.B q := rfl
@[simp] theorem State.S_setImemWord (s : State) (i : Nat) (w : Word) (q : SReg) : (s.setImemWord i w).S q = s.S q := rfl
@[simp] theorem State.dmemByte_setImemWord (s : State) (i : Nat) (w : Word) (c : Nat) : (s.setImemWord i w).dmemByte c = s.dmemByte c := rfl
@[simp] theorem State.memRead_setImemWord (s : State) (i : Nat) (w : Word) (c l : Nat) : (s.setImemWord i w).memRead c l = s.memRead c l := rfl
@[simp] theorem State.B_advance (s : State) (q : BReg) : (s.advance).B q = s.B q := rfl
@[simp] theorem State.S_advance (s : State) (q : SReg) : (s.advance).S q = s.S q := rfl
@[simp] theorem State.dmemByte_advance (s : State) (c : Nat) : (s.advance).dmemByte c = s.dmemByte c := rfl
@[simp] theorem State.memRead_advance (s : State) (c l : Nat) : (s.advance).memRead c l = s.memRead c l := rfl
@[simp] theorem State.imemWord_advance (s : State) (c : Nat) : (s.advance).imemWord c = s.imemWord c := rfl
@[simp] theorem State.B_trapped (s : State) (e : Exn) (q : BReg) : (s.trapped e).B q = s.B q := rfl
@[simp] theorem State.S_trapped (s : State) (e : Exn) (q : SReg) : (s.trapped e).S q = s.S q := rfl
@[simp] theorem State.dmemByte_trapped (s : State) (e : Exn) (c : Nat) : (s.trapped e).dmemByte c = s.dmemByte c := rfl
@[simp] theorem State.memRead_trapped (s : State) (e : Exn) (c l : Nat) : (s.trapped e).memRead c l = s.memRead c l := rfl
@[simp] theorem State.imemWord_trapped (s : State) (e : Exn) (c : Nat) : (s.trapped e).imemWord c = s.imemWord c := rfl
@[simp] theorem State.dmemByte_startRun (s : State) (c : Nat) : (s.startRun).dmemByte c = s.dmemByte c := rfl
@[simp] theorem State.memRead_startRun (s : State) (c l : Nat) : (s.startRun).memRead c l = s.memRead c l := rfl
@[simp] theorem State.imemWord_startRun (s : State) (c : Nat) : (s.startRun).imemWord c = s.imemWord c := rfl

@[simp] theorem State.S_startRun (s : State) (r : SReg) : s.startRun.S r = 0#32 := by
  simp [State.S]

@[simp] theorem State.B_startRun (s : State) (r : BReg) : s.startRun.B r = [] := by
  simp [State.B]

@[simp] theorem State.S_resetWith (c : Config) (r : SReg) : (State.resetWith c).S r = 0#32 := by
  simp [State.S, State.resetWith]

@[simp] theorem State.B_resetWith (c : Config) (r : BReg) : (State.resetWith c).B r = [] := by
  simp [State.B, State.resetWith]

end Sys2Proof.Machine
end

