-- ==== Sys2Proof/Laws/Ops.lean ====
section
/-! SUPPORT. One lemma per shared operation that says everything it can do: what each destination write leaves, what each
check answers, what an exception does. Later proofs cite these and do not unfold the operations. -/

namespace Sys2Proof.Machine

/-! ## Parts left unchanged -/

theorem SameMemory.outside {s t : State} (h : SameMemory s t) (addr n : Nat) : SameMemoryOutside addr n s t :=
  fun a _ => h a

/-! ## Destinations -/

@[simp] theorem complete_next {s t : State} : complete s = .next t ↔ t = s.advance := by
  simp [complete, eq_comm]

@[simp] theorem raise_next {e : Exn} {s t : State} : raise e s = .next t ↔ t = s.trapped e := by
  simp [raise, eq_comm]

theorem writesScalar_setS (d : SReg) (v : Word) (s : State) : WritesScalar d v s (s.setS d v).advance where
  value := by simp
  scalars r h := by simp [State.S_setS_ne s v h]
  bignums _ := rfl
  flag := rfl
  memory _ := rfl
  status := ⟨rfl, rfl, rfl, rfl⟩
  pc := rfl
  system := ⟨rfl, fun _ => rfl, rfl, rfl, rfl, rfl, rfl⟩

theorem writesBignum_setB (d : BReg) (x : ByteString) (s : State) : WritesBignum d x s (s.setB d x).advance where
  value := by simp
  bignums r h := by simp [State.B_setB_ne s x h]
  scalars _ := rfl
  flag := rfl
  memory _ := rfl
  status := ⟨rfl, rfl, rfl, rfl⟩
  pc := rfl
  system := ⟨rfl, fun _ => rfl, rfl, rfl, rfl, rfl, rfl⟩

theorem writesTwoBignums_setB {d d' : BReg} (hd : d ≠ d') (x x' : ByteString) (s : State) :
    WritesTwoBignums d x d' x' s ((s.setB d x).setB d' x').advance where
  first := by simp [State.B_setB_ne (s.setB d x) x' hd]
  second := by simp
  bignums r h h' := by simp [State.B_setB_ne (s.setB d x) x' h', State.B_setB_ne s x h]
  scalars _ := rfl
  flag := rfl
  memory _ := rfl
  status := ⟨rfl, rfl, rfl, rfl⟩
  pc := rfl
  system := ⟨rfl, fun _ => rfl, rfl, rfl, rfl, rfl, rfl⟩

theorem writesFlag_setFlag (b : Bool) (s : State) : WritesFlag b s (s.setFlag b).advance where
  value := rfl
  scalars _ := rfl
  bignums _ := rfl
  memory _ := rfl
  status := ⟨rfl, rfl, rfl, rfl⟩
  pc := rfl
  system := ⟨rfl, fun _ => rfl, rfl, rfl, rfl, rfl, rfl⟩

theorem storesBytes_memWrite (addr : Nat) (x : ByteString) (s : State) :
    StoresBytes addr x s (s.memWrite addr x).advance where
  stored k h := by simp [dmemByte_memWrite_inside s addr x k h]
  outside a h := by simp [dmemByte_memWrite_outside s x h]
  registers := ⟨fun _ => rfl, fun _ => rfl, rfl⟩
  status := ⟨rfl, rfl, rfl, rfl⟩
  pc := rfl
  system := ⟨rfl, fun _ => rfl, rfl, rfl, rfl, rfl, rfl⟩

theorem raises_trapped (e : Exn) (s : State) : Raises e s (s.trapped e) where
  cause := rfl
  err := rfl
  busy := rfl
  done := rfl
  pc := rfl
  registers := ⟨fun _ => rfl, fun _ => rfl, rfl⟩
  memory _ := rfl
  system := ⟨rfl, fun _ => rfl, rfl, rfl, rfl, rfl, rfl⟩

theorem writeS_spec (d : SReg) (v : Word) (s : State) : ∃ t, writeS d v s = .next t ∧ WritesScalar d v s t :=
  ⟨_, rfl, writesScalar_setS d v s⟩

theorem writeB_spec (d : BReg) (x : ByteString) (s : State) : ∃ t, writeB d x s = .next t ∧ WritesBignum d x s t :=
  ⟨_, rfl, writesBignum_setB d x s⟩

theorem writeBB_spec {d d' : BReg} (hd : d ≠ d') (x x' : ByteString) (s : State) :
    ∃ t, writeBB d x d' x' s = .next t ∧ WritesTwoBignums d x d' x' s t :=
  ⟨_, rfl, writesTwoBignums_setB hd x x' s⟩

theorem writeF_spec (b : Bool) (s : State) : ∃ t, writeF b s = .next t ∧ WritesFlag b s t :=
  ⟨_, rfl, writesFlag_setFlag b s⟩

theorem store_spec (addr : Nat) (x : ByteString) (s : State) :
    ∃ t, store addr x s = .next t ∧ StoresBytes addr x s t :=
  ⟨_, rfl, storesBytes_memWrite addr x s⟩

theorem raise_spec (e : Exn) (s : State) : ∃ t, raise e s = .next t ∧ Raises e s t :=
  ⟨_, rfl, raises_trapped e s⟩

theorem writeS_next {d : SReg} {v : Word} {s t : State} : writeS d v s = .next t ↔ t = (s.setS d v).advance :=
  complete_next

theorem writeB_next {d : BReg} {x : ByteString} {s t : State} : writeB d x s = .next t ↔ t = (s.setB d x).advance :=
  complete_next

theorem writeBB_next {d d' : BReg} {x x' : ByteString} {s t : State} :
    writeBB d x d' x' s = .next t ↔ t = ((s.setB d x).setB d' x').advance :=
  complete_next

theorem writeF_next {b : Bool} {s t : State} : writeF b s = .next t ↔ t = (s.setFlag b).advance := complete_next

theorem store_next {addr : Nat} {x : ByteString} {s t : State} :
    store addr x s = .next t ↔ t = (s.memWrite addr x).advance :=
  complete_next

theorem execHalt_spec (s : State) : ∃ t, execHalt s = .next t ∧ Halts s t :=
  ⟨_, rfl, ⟨rfl, rfl, rfl, rfl, rfl, ⟨fun _ => rfl, fun _ => rfl, rfl⟩, fun _ => rfl, ⟨rfl, fun _ => rfl, rfl, rfl, rfl, rfl, rfl⟩⟩⟩

/-! ## Checks -/

theorem requireDmem_pos {addr n : Nat} {s : State} (h : addr + n ≤ s.cfg.dmemBytes) (k : Result) :
    requireDmem addr n s k = k := by
  simp [requireDmem, inDmem, h]

theorem requireDmem_neg {addr n : Nat} {s : State} (h : ¬ addr + n ≤ s.cfg.dmemBytes) (k : Result) :
    requireDmem addr n s k = raise .dataAddressFault s := by
  simp [requireDmem, inDmem, h]

theorem requireCapacity_pos {n : Nat} {s : State} (h : n ≤ s.cfg.bnMaxBytes) (k : Result) :
    requireCapacity n s k = k := by
  simp [requireCapacity, Nat.not_lt.2 h]

theorem requireCapacity_neg {n : Nat} {s : State} (h : s.cfg.bnMaxBytes < n) (k : Result) :
    requireCapacity n s k = raise .capacityExceeded s := by
  simp [requireCapacity, h]

theorem requireSameLength_pos {a b : ByteString} (h : a.length = b.length) (s : State) (k : Result) :
    requireSameLength a b s k = k := by
  simp [requireSameLength, h]

theorem requireSameLength_neg {a b : ByteString} (h : a.length ≠ b.length) (s : State) (k : Result) :
    requireSameLength a b s k = raise .lengthMismatch s := by
  simp [requireSameLength, h]

theorem requireNonzero_pos {v : Nat} (h : v ≠ 0) (s : State) (k : Result) : requireNonzero v s k = k := by
  simp [requireNonzero, h]

theorem requireNonzero_neg (s : State) (k : Result) : requireNonzero 0 s k = raise .divisionByZero s := by
  simp [requireNonzero]

/-- A check either lets the command go on or takes its exception. -/
theorem requireDmem_next {addr n : Nat} {s t : State} {k : Result} :
    requireDmem addr n s k = .next t ↔
      (addr + n ≤ s.cfg.dmemBytes ∧ k = .next t) ∨ (¬ addr + n ≤ s.cfg.dmemBytes ∧ t = s.trapped .dataAddressFault) := by
  by_cases h : addr + n ≤ s.cfg.dmemBytes
  · simp [requireDmem_pos h, h]
  · simp [requireDmem_neg h, h]

theorem requireCapacity_next {n : Nat} {s t : State} {k : Result} :
    requireCapacity n s k = .next t ↔
      (n ≤ s.cfg.bnMaxBytes ∧ k = .next t) ∨ (s.cfg.bnMaxBytes < n ∧ t = s.trapped .capacityExceeded) := by
  by_cases h : n ≤ s.cfg.bnMaxBytes
  · simp [requireCapacity_pos h, h]
  · simp [requireCapacity_neg (Nat.lt_of_not_le h), h, Nat.lt_of_not_le h]

theorem requireSameLength_next {a b : ByteString} {s t : State} {k : Result} :
    requireSameLength a b s k = .next t ↔
      (a.length = b.length ∧ k = .next t) ∨ (a.length ≠ b.length ∧ t = s.trapped .lengthMismatch) := by
  by_cases h : a.length = b.length
  · simp [requireSameLength_pos h, h]
  · simp [requireSameLength_neg h, h]

theorem requireNonzero_next {v : Nat} {s t : State} {k : Result} :
    requireNonzero v s k = .next t ↔ (v ≠ 0 ∧ k = .next t) ∨ (v = 0 ∧ t = s.trapped .divisionByZero) := by
  by_cases h : v = 0
  · subst h; simp [requireNonzero_neg]
  · simp [requireNonzero_pos h, h]

/-! ## What a command answers, from the operation its meaning ends in -/

theorem answers_writeS {i : Instr} {s : State} {d : SReg} {v w : Word} (h : exec i s = writeS d v s) (hv : v = w) :
    Answers i s (WritesScalar d w s) := by
  subst hv
  obtain ⟨t, a, b⟩ := writeS_spec d v s
  exact ⟨t, h.trans a, b⟩

theorem answers_writeB {i : Instr} {s : State} {d : BReg} {x y : ByteString} (h : exec i s = writeB d x s)
    (hx : x = y) : Answers i s (WritesBignum d y s) := by
  subst hx
  obtain ⟨t, a, b⟩ := writeB_spec d x s
  exact ⟨t, h.trans a, b⟩

/-- The same where the byte string written is only described. -/
theorem answers_writeB_of {i : Instr} {s : State} {d : BReg} {x : ByteString} {P : ByteString → Prop}
    (h : exec i s = writeB d x s) (hx : P x) : Answers i s (fun t => WritesBignum d (t.B d) s t ∧ P (t.B d)) := by
  obtain ⟨t, a, b⟩ := writeB_spec d x s
  exact ⟨t, h.trans a, b.value.symm ▸ b, b.value.symm ▸ hx⟩

theorem answers_writeF {i : Instr} {s : State} {b c : Bool} (h : exec i s = writeF b s) (hb : b = c) :
    Answers i s (WritesFlag c s) := by
  subst hb
  obtain ⟨t, a, b⟩ := writeF_spec b s
  exact ⟨t, h.trans a, b⟩

theorem answers_raise {i : Instr} {s : State} {e : Exn} (h : exec i s = raise e s) : Answers i s (Raises e s) := by
  obtain ⟨t, a, b⟩ := raise_spec e s
  exact ⟨t, h.trans a, b⟩

/-! ## The step -/

/-- The fetch is the word at PC, or nothing past the end of IMEM. -/
theorem fetch_eq_some {s : State} {w : Word} :
    s.fetch = some w ↔ s.pc.toNat < s.cfg.imemWords ∧ s.imemWord s.pc.toNat = w := by
  simp [State.fetch]

theorem fetch_eq_none {s : State} : s.fetch = none ↔ s.cfg.imemWords ≤ s.pc.toNat := by
  simp [State.fetch]

/-- Everything an engine step can do: a failed fetch, an illegal word, or the command decoded. -/
theorem engineStep_cases (s : State) :
    (s.cfg.imemWords ≤ s.pc.toNat ∧ engineStep s = raise .fetchFault s) ∨
    (s.pc.toNat < s.cfg.imemWords ∧ ∃ e, decode (s.imemWord s.pc.toNat) = .error e ∧
      engineStep s = raise .illegalInstruction s) ∨
    (s.pc.toNat < s.cfg.imemWords ∧ ∃ i, decode (s.imemWord s.pc.toNat) = .ok i ∧ engineStep s = exec i s) := by
  by_cases h : s.pc.toNat < s.cfg.imemWords
  · have hf : s.fetch = some (s.imemWord s.pc.toNat) := fetch_eq_some.2 ⟨h, rfl⟩
    cases hd : decode (s.imemWord s.pc.toNat) with
    | error e => exact .inr (.inl ⟨h, e, rfl, by simp [engineStep, hf, hd]⟩)
    | ok i => exact .inr (.inr ⟨h, i, rfl, by simp [engineStep, hf, hd]⟩)
  · have hf : s.fetch = none := fetch_eq_none.2 (Nat.le_of_not_lt h)
    exact .inl ⟨Nat.le_of_not_lt h, by simp [engineStep, hf]⟩

theorem engineTurn_busy {s : State} (h : s.busy = true) : engineTurn s = engineStep s := by simp [engineTurn, h]

theorem engineTurn_idle {s : State} (h : s.busy = false) : engineTurn s = .next s := by simp [engineTurn, h]

theorem step_alone {s : State} (h : s.schedule = []) : step s = engineTurn s := by simp [step, runSchedule, h]

theorem step_event {s : State} {e : Event} {es : List Event} (h : s.schedule = e :: es) :
    step s = runEvent e { s with schedule := es } := by
  simp [step, runSchedule, h]

/-- Where the engine acts next, the step is its turn at the state it acts on. -/
theorem step_engineNext {s s₀ : State} (h : EngineNext s s₀) : step s = engineTurn s₀ := by
  rcases h with ⟨h, rfl⟩ | ⟨es, h, rfl⟩
  · exact step_alone h
  · exact step_event h

end Sys2Proof.Machine
end

