-- ==== Sys2Proof/Laws/Exec.lean ====
section
/-! SUPPORT. The inversion lemma of exec: whatever a command answers, it is one of the six kinds of effect below, with the
operands the tables of Safety.lean give it. Proofs about every command cite it and do not unfold the meanings. -/

namespace Sys2Proof.Machine

/-- Every kind of effect a command can have on a state. -/
inductive Effect (i : Instr) (s : State) : State → Prop where
  /-- One scalar register written. -/
  | scalar (d : SReg) (v : Word) (hd : scalarDest i = some d) (hb : bignumDests i = []) (hf : writesFlag i = false)
      (hm : storeRange i s = none) (hh : i ≠ .halt) : Effect i s (s.setS d v).advance
  /-- One bignum register written, with a length within capacity if every register's is. -/
  | bignum (d : BReg) (x : ByteString) (hs : scalarDest i = none) (hd : bignumDests i = [d]) (hf : writesFlag i = false)
      (hm : storeRange i s = none) (hh : i ≠ .halt)
      (hx : (∀ r, (s.B r).length ≤ s.cfg.bnMaxBytes) → x.length ≤ s.cfg.bnMaxBytes) : Effect i s (s.setB d x).advance
  /-- Two bignum registers written, the first one first. -/
  | bignums (d : BReg) (x : ByteString) (d' : BReg) (x' : ByteString) (hs : scalarDest i = none)
      (hd : bignumDests i = [d, d']) (hf : writesFlag i = false) (hm : storeRange i s = none) (hh : i ≠ .halt)
      (hx : (∀ r, (s.B r).length ≤ s.cfg.bnMaxBytes) → x.length ≤ s.cfg.bnMaxBytes ∧ x'.length ≤ s.cfg.bnMaxBytes) :
      Effect i s ((s.setB d x).setB d' x').advance
  /-- F written. -/
  | flag (b : Bool) (hs : scalarDest i = none) (hb : bignumDests i = []) (hf : writesFlag i = true)
      (hm : storeRange i s = none) (hh : i ≠ .halt) : Effect i s (s.setFlag b).advance
  /-- A byte string stored, within DMEM. -/
  | store (addr : Nat) (x : ByteString) (hs : scalarDest i = none) (hb : bignumDests i = []) (hf : writesFlag i = false)
      (hm : storeRange i s = some (addr, x.length)) (hh : i ≠ .halt) (hin : addr + x.length ≤ s.cfg.dmemBytes) :
      Effect i s (s.memWrite addr x).advance
  /-- The run ended with HALT. -/
  | halt (hi : i = .halt) : Effect i s { s with busy := false, done := true }
  /-- The run ended with an exception the command can raise. -/
  | raised (e : Exn) (he : e ∈ exceptionsOf i) (hh : i ≠ .halt) : Effect i s (s.trapped e)

theorem dropWhile_length_le {α : Type} (p : α → Bool) (x : List α) : (x.dropWhile p).length ≤ x.length :=
  (List.dropWhile_sublist p).length_le

theorem trimLeft_length_le (x : ByteString) : (trimLeft x).length ≤ x.length := dropWhile_length_le _ _

theorem trimRight_length_le (x : ByteString) : (trimRight x).length ≤ x.length := by
  have := trimLeft_length_le x.reverse
  simpa [trimRight] using this

@[simp] theorem shiftLeft_length (x : ByteString) (n : Nat) : (shiftLeft x n).length = x.length := by
  unfold shiftLeft; split <;> simp

@[simp] theorem shiftRight_length (x : ByteString) (n : Nat) : (shiftRight x n).length = x.length := by
  unfold shiftRight; split <;> simp

@[simp] theorem shiftRightSigned_length (x : ByteString) : (shiftRightSigned x).length = x.length := by
  unfold shiftRightSigned; split <;> simp

@[simp] theorem resizeNumber_length (fill : Byte) (x : ByteString) (n : Nat) : (resizeNumber fill x n).length = n := by
  unfold resizeNumber; split <;> simp <;> omega

@[simp] theorem resizeBytes_length (x : ByteString) (n : Nat) : (resizeBytes x n).length = n := by
  simp [resizeBytes]; omega

@[simp] theorem selectBytes_length (f : Bool) (a b : ByteString) :
    (selectBytes f a b).length = min a.length b.length := by
  simp [selectBytes]

/-- What a command does is one of the kinds of effect above. -/
theorem exec_effect {i : Instr} {s t : State} (h : exec i s = .next t) : Effect i s t := by
  have hmax : ∀ a b : BReg, (∀ r, (s.B r).length ≤ s.cfg.bnMaxBytes) →
      longerLength (s.B a) (s.B b) ≤ s.cfg.bnMaxBytes := fun a b hr => max_le (hr a) (hr b)
  cases i with
  | halt => cases h; exact .halt rfl
  | lil d imm => cases h; exact .scalar _ _ rfl rfl rfl rfl nofun
  | lih d imm => cases h; exact .scalar _ _ rfl rfl rfl rfl nofun
  | sadd d a b => cases h; exact .scalar _ _ rfl rfl rfl rfl nofun
  | ssub d a b => cases h; exact .scalar _ _ rfl rfl rfl rfl nofun
  | sshl d a b => cases h; exact .scalar _ _ rfl rfl rfl rfl nofun
  | sshr d a b => cases h; exact .scalar _ _ rfl rfl rfl rfl nofun
  | scmp d a b => cases h; exact .scalar _ _ rfl rfl rfl rfl nofun
  | ssel d a b => cases h; exact .scalar _ _ rfl rfl rfl rfl nofun
  | sdiv d a b =>
    rcases requireNonzero_next.1 h with ⟨_, h⟩ | ⟨_, rfl⟩
    · cases h; exact .scalar _ _ rfl rfl rfl rfl nofun
    · exact .raised _ (by simp [exceptionsOf]) nofun
  | smod d a b =>
    rcases requireNonzero_next.1 h with ⟨_, h⟩ | ⟨_, rfl⟩
    · cases h; exact .scalar _ _ rfl rfl rfl rfl nofun
    · exact .raised _ (by simp [exceptionsOf]) nofun
  | ftst a c => cases h; exact .flag _ rfl rfl rfl rfl nofun
  | fpars a => cases h; exact .flag _ rfl rfl rfl rfl nofun
  | fparb a => cases h; exact .flag _ rfl rfl rfl rfl nofun
  | bld d a n =>
    rcases requireCapacity_next.1 h with ⟨hc, h⟩ | ⟨_, rfl⟩
    · rcases requireDmem_next.1 h with ⟨_, h⟩ | ⟨_, rfl⟩
      · cases h; exact .bignum _ _ rfl rfl rfl rfl nofun (fun _ => by simpa [State.memRead] using hc)
      · exact .raised _ (by simp [exceptionsOf]) nofun
    · exact .raised _ (by simp [exceptionsOf]) nofun
  | bst x a =>
    rcases requireDmem_next.1 h with ⟨hin, h⟩ | ⟨_, rfl⟩
    · cases h; exact .store _ _ rfl rfl rfl rfl nofun hin
    · exact .raised _ (by simp [exceptionsOf]) nofun
  | bmov d x => cases h; exact .bignum _ _ rfl rfl rfl rfl nofun (fun hr => hr x)
  | blen d x => cases h; exact .scalar _ _ rfl rfl rfl rfl nofun
  | sld d a =>
    rcases requireDmem_next.1 h with ⟨_, h⟩ | ⟨_, rfl⟩
    · cases h; exact .scalar _ _ rfl rfl rfl rfl nofun
    · exact .raised _ (by simp [exceptionsOf]) nofun
  | sst x a =>
    rcases requireDmem_next.1 h with ⟨hin, h⟩ | ⟨_, rfl⟩
    · cases h; exact .store _ _ rfl rfl rfl (by simp [storeRange, wordBytes]) nofun (by simpa [wordBytes] using hin)
    · exact .raised _ (by simp [exceptionsOf]) nofun
  | brsz d x n =>
    rcases requireCapacity_next.1 h with ⟨hc, h⟩ | ⟨_, rfl⟩
    · cases h; exact .bignum _ _ rfl rfl rfl rfl nofun (fun _ => by simpa using hc)
    · exact .raised _ (by simp [exceptionsOf]) nofun
  | btrml d x => cases h; exact .bignum _ _ rfl rfl rfl rfl nofun (fun hr => (trimLeft_length_le _).trans (hr x))
  | btrmr d x => cases h; exact .bignum _ _ rfl rfl rfl rfl nofun (fun hr => (trimRight_length_le _).trans (hr x))
  | bnorm d x n =>
    rcases requireCapacity_next.1 h with ⟨hc, h⟩ | ⟨_, rfl⟩
    · cases h; exact .bignum _ _ rfl rfl rfl rfl nofun (fun _ => by simpa using hc)
    · exact .raised _ (by simp [exceptionsOf]) nofun
  | bnormu d x n =>
    rcases requireCapacity_next.1 h with ⟨hc, h⟩ | ⟨_, rfl⟩
    · cases h; exact .bignum _ _ rfl rfl rfl rfl nofun (fun _ => by simpa using hc)
    · exact .raised _ (by simp [exceptionsOf]) nofun
  | bcmp d a b =>
    rcases requireSameLength_next.1 h with ⟨_, h⟩ | ⟨_, rfl⟩
    · cases h; exact .scalar _ _ rfl rfl rfl rfl nofun
    · exact .raised _ (by simp [exceptionsOf]) nofun
  | beq d a b => cases h; exact .scalar _ _ rfl rfl rfl rfl nofun
  | bsel d a b =>
    rcases requireSameLength_next.1 h with ⟨_, h⟩ | ⟨_, rfl⟩
    · cases h; exact .bignum _ _ rfl rfl rfl rfl nofun (fun hr => by have := hr a; simp; omega)
    · exact .raised _ (by simp [exceptionsOf]) nofun
  | band d a b =>
    rcases requireSameLength_next.1 h with ⟨_, h⟩ | ⟨_, rfl⟩
    · cases h; exact .bignum _ _ rfl rfl rfl rfl nofun (fun hr => by have := hr a; simp; omega)
    · exact .raised _ (by simp [exceptionsOf]) nofun
  | bor d a b =>
    rcases requireSameLength_next.1 h with ⟨_, h⟩ | ⟨_, rfl⟩
    · cases h; exact .bignum _ _ rfl rfl rfl rfl nofun (fun hr => by have := hr a; simp; omega)
    · exact .raised _ (by simp [exceptionsOf]) nofun
  | bxor d a b =>
    rcases requireSameLength_next.1 h with ⟨_, h⟩ | ⟨_, rfl⟩
    · cases h; exact .bignum _ _ rfl rfl rfl rfl nofun (fun hr => by have := hr a; simp; omega)
    · exact .raised _ (by simp [exceptionsOf]) nofun
  | blsh1 d => cases h; exact .bignum _ _ rfl rfl rfl rfl nofun (fun hr => by simpa using hr d)
  | brsh1 d => cases h; exact .bignum _ _ rfl rfl rfl rfl nofun (fun hr => by simpa using hr d)
  | brsh1s d => cases h; exact .bignum _ _ rfl rfl rfl rfl nofun (fun hr => by simpa using hr d)
  | bshl d x c => cases h; exact .bignum _ _ rfl rfl rfl rfl nofun (fun hr => by simpa using hr x)
  | bshr d x c => cases h; exact .bignum _ _ rfl rfl rfl rfl nofun (fun hr => by simpa using hr x)
  | badd d a b => cases h; exact .bignum _ _ rfl rfl rfl rfl nofun (fun hr => by simpa using hmax a b hr)
  | bsub d a b => cases h; exact .bignum _ _ rfl rfl rfl rfl nofun (fun hr => by simpa using hmax a b hr)
  | bmul d a b =>
    rcases requireCapacity_next.1 h with ⟨hc, h⟩ | ⟨_, rfl⟩
    · cases h; exact .bignum _ _ rfl rfl rfl rfl nofun (fun _ => by simpa using hc)
    · exact .raised _ (by simp [exceptionsOf]) nofun
  | bdivmod q r a b =>
    rcases requireNonzero_next.1 h with ⟨_, h⟩ | ⟨_, rfl⟩
    · cases h; exact .bignums _ _ _ _ rfl rfl rfl rfl nofun (fun hr => by simpa using hmax a b hr)
    · exact .raised _ (by simp [exceptionsOf]) nofun
  | bdiv d a b =>
    rcases requireNonzero_next.1 h with ⟨_, h⟩ | ⟨_, rfl⟩
    · cases h; exact .bignum _ _ rfl rfl rfl rfl nofun (fun hr => by simpa using hmax a b hr)
    · exact .raised _ (by simp [exceptionsOf]) nofun
  | bmod d a b =>
    rcases requireNonzero_next.1 h with ⟨_, h⟩ | ⟨_, rfl⟩
    · cases h; exact .bignum _ _ rfl rfl rfl rfl nofun (fun hr => by simpa using hmax a b hr)
    · exact .raised _ (by simp [exceptionsOf]) nofun
  | bpow d a e n =>
    rcases requireCapacity_next.1 h with ⟨hc, h⟩ | ⟨_, rfl⟩
    · cases h; exact .bignum _ _ rfl rfl rfl rfl nofun (fun _ => by simpa using hc)
    · exact .raised _ (by simp [exceptionsOf]) nofun
  | bmodpow d a e m =>
    rcases requireNonzero_next.1 h with ⟨_, h⟩ | ⟨_, rfl⟩
    · cases h; exact .bignum _ _ rfl rfl rfl rfl nofun (fun hr => by simpa using hr m)
    · exact .raised _ (by simp [exceptionsOf]) nofun
  | bgcd d a b => cases h; exact .bignum _ _ rfl rfl rfl rfl nofun (fun hr => by simpa using hmax a b hr)
  | bxgcd u g a b => cases h; exact .bignums _ _ _ _ rfl rfl rfl rfl nofun (fun hr => by simpa using hmax a b hr)
  | bmodinv d x m =>
    rcases requireNonzero_next.1 h with ⟨_, h⟩ | ⟨_, rfl⟩
    · split at h
      · cases h; exact .raised _ (by simp [exceptionsOf]) nofun
      · cases h; exact .bignum _ _ rfl rfl rfl rfl nofun (fun hr => by simpa using hmax x m hr)
    · exact .raised _ (by simp [exceptionsOf]) nofun

end Sys2Proof.Machine
end

