-- ==== Sys2Proof/Laws/Flags.lean ====
section
/-! SUPPORT. The comparison result and the two branchless multiplexers, as the claims speak of them. -/

namespace Sys2Proof.Machine

theorem compareResult_eq (a b : Nat) : compareResult a b = BitVec.ofInt 32 (threeWay a b) := by
  unfold compareResult threeWay
  split <;> (try split) <;> decide

theorem xor_xor_left {n : Nat} (a b : BitVec n) : b ^^^ (a ^^^ b) = a := by
  rw [BitVec.xor_comm a, ← BitVec.xor_assoc, BitVec.xor_self, BitVec.zero_xor]

theorem selectWord_eq (f : Bool) (a b : Word) : selectWord f a b = if f then a else b := by
  unfold selectWord wordMask
  cases f
  · simp
  · rw [if_pos rfl, show (0xFFFFFFFF#32) = BitVec.allOnes 32 from rfl, BitVec.and_allOnes, xor_xor_left]; rfl

/-- For equal lengths the bignum multiplexer picks one operand whole. -/
theorem selectBytes_eq (f : Bool) (a b : ByteString) (h : a.length = b.length) :
    selectBytes f a b = if f then a else b := by
  unfold selectBytes
  induction a generalizing b with
  | nil => cases b <;> simp_all
  | cons x a ih =>
    cases b with
    | nil => simp at h
    | cons y b =>
      rw [List.zipWith_cons_cons, ih b (by simpa using h)]
      cases f
      · simp [byteMask]
      · simp only [byteMask, if_true]
        rw [show (0xFF#8) = BitVec.allOnes 8 from rfl, BitVec.and_allOnes, xor_xor_left]

/-- The OR of a list of bytes is zero exactly when every byte is. -/
theorem foldl_or_eq_zero (l : List Byte) (a : Byte) : l.foldl (· ||| ·) a = 0#8 ↔ a = 0#8 ∧ ∀ x ∈ l, x = 0#8 := by
  induction l generalizing a with
  | nil => simp
  | cons b l ih => simp [ih]; tauto

end Sys2Proof.Machine
end

