-- ==== Sys2Proof/Laws/PerInstr.lean ====
section
/-! SUPPORT. The per-command law EncodedForm: the word of a command carries its opcode and sets no reserved bit of its
format (30_encoding.md R301, R302, R306). -/

namespace Sys2Proof.Laws.EncodedForm

/-- The encoded word carries the command's opcode and is clean for the command's format. -/
def Statement (i : Instr) : Prop := opField (encode i) = i.opcode ∧ reservedClean i.format (encode i) = true

/-- The law for every command at once, by the field laws of the two kinds of word. -/
theorem everyInstr (i : Instr) : Statement i := by
  cases i <;> simp [Statement, encode, Instr.format, Instr.opcode]

theorem halt : Statement (.halt) := everyInstr _

theorem lil (d : SReg) (imm : BitVec 16) : Statement (.lil d imm) := everyInstr _

theorem lih (d : SReg) (imm : BitVec 16) : Statement (.lih d imm) := everyInstr _

theorem sadd (d a b : SReg) : Statement (.sadd d a b) := everyInstr _

theorem ssub (d a b : SReg) : Statement (.ssub d a b) := everyInstr _

theorem sshl (d a b : SReg) : Statement (.sshl d a b) := everyInstr _

theorem sshr (d a b : SReg) : Statement (.sshr d a b) := everyInstr _

theorem scmp (d a b : SReg) : Statement (.scmp d a b) := everyInstr _

theorem ssel (d a b : SReg) : Statement (.ssel d a b) := everyInstr _

theorem sdiv (d a b : SReg) : Statement (.sdiv d a b) := everyInstr _

theorem smod (d a b : SReg) : Statement (.smod d a b) := everyInstr _

theorem ftst (a : SReg) (c : Cond) : Statement (.ftst a c) := everyInstr _

theorem fpars (a : SReg) : Statement (.fpars a) := everyInstr _

theorem fparb (a : BReg) : Statement (.fparb a) := everyInstr _

theorem bld (d : BReg) (a n : SReg) : Statement (.bld d a n) := everyInstr _

theorem bst (x : BReg) (a : SReg) : Statement (.bst x a) := everyInstr _

theorem bmov (d x : BReg) : Statement (.bmov d x) := everyInstr _

theorem blen (d : SReg) (x : BReg) : Statement (.blen d x) := everyInstr _

theorem sld (d a : SReg) : Statement (.sld d a) := everyInstr _

theorem sst (x a : SReg) : Statement (.sst x a) := everyInstr _

theorem brsz (d x : BReg) (n : SReg) : Statement (.brsz d x n) := everyInstr _

theorem btrml (d x : BReg) : Statement (.btrml d x) := everyInstr _

theorem btrmr (d x : BReg) : Statement (.btrmr d x) := everyInstr _

theorem bnorm (d x : BReg) (n : SReg) : Statement (.bnorm d x n) := everyInstr _

theorem bnormu (d x : BReg) (n : SReg) : Statement (.bnormu d x n) := everyInstr _

theorem bcmp (d : SReg) (a b : BReg) : Statement (.bcmp d a b) := everyInstr _

theorem beq (d : SReg) (a b : BReg) : Statement (.beq d a b) := everyInstr _

theorem bsel (d a b : BReg) : Statement (.bsel d a b) := everyInstr _

theorem band (d a b : BReg) : Statement (.band d a b) := everyInstr _

theorem bor (d a b : BReg) : Statement (.bor d a b) := everyInstr _

theorem bxor (d a b : BReg) : Statement (.bxor d a b) := everyInstr _

theorem blsh1 (d : BReg) : Statement (.blsh1 d) := everyInstr _

theorem brsh1 (d : BReg) : Statement (.brsh1 d) := everyInstr _

theorem brsh1s (d : BReg) : Statement (.brsh1s d) := everyInstr _

theorem bshl (d x c : BReg) : Statement (.bshl d x c) := everyInstr _

theorem bshr (d x c : BReg) : Statement (.bshr d x c) := everyInstr _

theorem badd (d a b : BReg) : Statement (.badd d a b) := everyInstr _

theorem bsub (d a b : BReg) : Statement (.bsub d a b) := everyInstr _

theorem bmul (d a b : BReg) : Statement (.bmul d a b) := everyInstr _

theorem bdivmod (q r a b : BReg) : Statement (.bdivmod q r a b) := everyInstr _

theorem bdiv (d a b : BReg) : Statement (.bdiv d a b) := everyInstr _

theorem bmod (d a b : BReg) : Statement (.bmod d a b) := everyInstr _

theorem bpow (d a e : BReg) (n : SReg) : Statement (.bpow d a e n) := everyInstr _

theorem bmodpow (d a e m : BReg) : Statement (.bmodpow d a e m) := everyInstr _

theorem bgcd (d a b : BReg) : Statement (.bgcd d a b) := everyInstr _

theorem bxgcd (u g a b : BReg) : Statement (.bxgcd u g a b) := everyInstr _

theorem bmodinv (d x m : BReg) : Statement (.bmodinv d x m) := everyInstr _

end Sys2Proof.Laws.EncodedForm
end

