-- ==== Sys2Proof/Tests/Slice0.lean ====
section
/-! SUPPORT. Tests and witnesses. Expected results come from the spec: the words from 30_encoding.md R301 to R306 and
95_test_vectors.md section 2.1, the results from 95_test_vectors.md sections 2.2 to 2.5 (the vector numbers stand in the
comments) or from the worked examples of the rules named. The witnesses show, for each obligation with hypotheses, a
concrete state and operands that meet them. -/

namespace Sys2Proof.Tests

open Sys2Proof Sys2Proof.Machine

/-! ## Helpers -/

/-- The state START leaves in configuration E0. -/
def start : State := State.reset.startRun

/-- With some scalar registers set. -/
def withS (s : State) (l : List (Fin 16 × Word)) : State := l.foldl (fun s p => s.setS ⟨p.1⟩ p.2) s

/-- With some bignum registers set. -/
def withB (s : State) (l : List (Fin 16 × ByteString)) : State := l.foldl (fun s p => s.setB ⟨p.1⟩ p.2) s

/-- START's state with some scalar and bignum registers set. -/
def regs (l : List (Fin 16 × Word)) (m : List (Fin 16 × ByteString)) : State := withB (withS start l) m

/-- With another BN_MAX_BYTES. -/
def withCapacity (n : Nat) (s : State) : State := { s with cfg := { s.cfg with bnMaxBytes := n } }

/-- A state with a command word at index 0, a run in progress and PC 0. -/
def atZero (s : State) (w : Word) : State := s.setImemWord 0 w

/-- The state a result holds; reset's if it holds none. -/
def stateOf : Result → State
  | .next t => t
  | _ => State.reset

/-- The scalar register after a command that completed (ERR 0). -/
def outS (r : Result) (i : Fin 16) : Option Word :=
  match r with
  | .next t => if t.err then none else some (t.S ⟨i⟩)
  | _ => none

/-- The bignum register after a command that completed. -/
def outB (r : Result) (i : Fin 16) : Option ByteString :=
  match r with
  | .next t => if t.err then none else some (t.B ⟨i⟩)
  | _ => none

/-- F after a command that completed. -/
def outF (r : Result) : Option Bool :=
  match r with
  | .next t => if t.err then none else some t.flag
  | _ => none

/-- n bytes of DMEM at an address after a command that completed. -/
def outM (r : Result) (a n : Nat) : Option ByteString :=
  match r with
  | .next t => if t.err then none else some (t.memRead a n)
  | _ => none

/-- The exception a command ended with, and that it left BUSY at 0, PC where it was and B1 and S1 empty. -/
def outE (r : Result) : Option Nat :=
  match r with
  | .next t =>
    if t.err && !t.busy && t.pc == 0#16 && t.B ⟨1⟩ == [] && t.S ⟨1⟩ == 0#32 then some t.cause.toNat else none
  | _ => none

/-- The code of the exception, where the command's operands stand in B1 or S1. -/
def outCode (r : Result) : Option Nat :=
  match r with
  | .next t => if t.err && !t.busy && t.pc == 0#16 then some t.cause.toNat else none
  | _ => none

/-! ## Well-formedness (R309) -/

theorem test_wf_refuses_bdivmod_same : (Instr.bdivmod ⟨4⟩ ⟨4⟩ ⟨1⟩ ⟨2⟩).wf = false := by decide
theorem test_wf_refuses_bxgcd_same : (Instr.bxgcd ⟨1⟩ ⟨1⟩ ⟨1⟩ ⟨2⟩).wf = false := by decide
theorem test_wf_accepts : (Instr.bdivmod ⟨4⟩ ⟨5⟩ ⟨1⟩ ⟨2⟩).wf = true ∧ (Instr.bxgcd ⟨1⟩ ⟨2⟩ ⟨1⟩ ⟨2⟩).wf = true ∧
    (Instr.bmodinv ⟨0⟩ ⟨0⟩ ⟨0⟩).wf = true := by decide

/-! ## Decoding: one word per command, written from R301 to R306 -/

theorem test_decode_run_and_flags :
    decode 0x01000000#32 = .ok (.halt) ∧
    decode 0x20350000#32 = .ok (.ftst ⟨3⟩ .ne) ∧
    decode 0x20100000#32 = .ok (.ftst ⟨1⟩ .lt) ∧
    decode 0x21A00000#32 = .ok (.fpars ⟨10⟩) ∧
    decode 0x22F00000#32 = .ok (.fparb ⟨15⟩) := by decide

theorem test_decode_scalar :
    decode 0x10F0FFFF#32 = .ok (.lil ⟨15⟩ 0xFFFF) ∧
    decode 0x11F0ABCD#32 = .ok (.lih ⟨15⟩ 0xABCD) ∧
    decode 0x12123000#32 = .ok (.sadd ⟨1⟩ ⟨2⟩ ⟨3⟩) ∧
    decode 0x13456000#32 = .ok (.ssub ⟨4⟩ ⟨5⟩ ⟨6⟩) ∧
    decode 0x14789000#32 = .ok (.sshl ⟨7⟩ ⟨8⟩ ⟨9⟩) ∧
    decode 0x15ABC000#32 = .ok (.sshr ⟨10⟩ ⟨11⟩ ⟨12⟩) ∧
    decode 0x16DEF000#32 = .ok (.scmp ⟨13⟩ ⟨14⟩ ⟨15⟩) ∧
    decode 0x17012000#32 = .ok (.ssel ⟨0⟩ ⟨1⟩ ⟨2⟩) ∧
    decode 0x18345000#32 = .ok (.sdiv ⟨3⟩ ⟨4⟩ ⟨5⟩) ∧
    decode 0x19678000#32 = .ok (.smod ⟨6⟩ ⟨7⟩ ⟨8⟩) := by decide

theorem test_decode_movement :
    decode 0x30113000#32 = .ok (.bld ⟨1⟩ ⟨1⟩ ⟨3⟩) ∧
    decode 0x31340000#32 = .ok (.bst ⟨3⟩ ⟨4⟩) ∧
    decode 0x32560000#32 = .ok (.bmov ⟨5⟩ ⟨6⟩) ∧
    decode 0x33780000#32 = .ok (.blen ⟨7⟩ ⟨8⟩) ∧
    decode 0x34430000#32 = .ok (.sld ⟨4⟩ ⟨3⟩) ∧
    decode 0x35120000#32 = .ok (.sst ⟨1⟩ ⟨2⟩) := by decide

theorem test_decode_resize :
    decode 0x38123000#32 = .ok (.brsz ⟨1⟩ ⟨2⟩ ⟨3⟩) ∧
    decode 0x39450000#32 = .ok (.btrml ⟨4⟩ ⟨5⟩) ∧
    decode 0x3A670000#32 = .ok (.btrmr ⟨6⟩ ⟨7⟩) ∧
    decode 0x3B89A000#32 = .ok (.bnorm ⟨8⟩ ⟨9⟩ ⟨10⟩) ∧
    decode 0x3C644000#32 = .ok (.bnormu ⟨6⟩ ⟨4⟩ ⟨4⟩) := by decide

theorem test_decode_compare :
    decode 0x40412000#32 = .ok (.bcmp ⟨4⟩ ⟨1⟩ ⟨2⟩) ∧
    decode 0x41978000#32 = .ok (.beq ⟨9⟩ ⟨7⟩ ⟨8⟩) ∧
    decode 0x42312000#32 = .ok (.bsel ⟨3⟩ ⟨1⟩ ⟨2⟩) := by decide

theorem test_decode_logic :
    decode 0x50123000#32 = .ok (.band ⟨1⟩ ⟨2⟩ ⟨3⟩) ∧
    decode 0x51456000#32 = .ok (.bor ⟨4⟩ ⟨5⟩ ⟨6⟩) ∧
    decode 0x52789000#32 = .ok (.bxor ⟨7⟩ ⟨8⟩ ⟨9⟩) ∧
    decode 0x53100000#32 = .ok (.blsh1 ⟨1⟩) ∧
    decode 0x54E00000#32 = .ok (.brsh1 ⟨14⟩) ∧
    decode 0x55F00000#32 = .ok (.brsh1s ⟨15⟩) ∧
    decode 0x56ABC000#32 = .ok (.bshl ⟨10⟩ ⟨11⟩ ⟨12⟩) ∧
    decode 0x57DEF000#32 = .ok (.bshr ⟨13⟩ ⟨14⟩ ⟨15⟩) := by decide

theorem test_decode_arith :
    decode 0x60312000#32 = .ok (.badd ⟨3⟩ ⟨1⟩ ⟨2⟩) ∧
    decode 0x61423000#32 = .ok (.bsub ⟨4⟩ ⟨2⟩ ⟨3⟩) ∧
    decode 0x62412000#32 = .ok (.bmul ⟨4⟩ ⟨1⟩ ⟨2⟩) ∧
    decode 0x63451200#32 = .ok (.bdivmod ⟨4⟩ ⟨5⟩ ⟨1⟩ ⟨2⟩) ∧
    decode 0x64678000#32 = .ok (.bdiv ⟨6⟩ ⟨7⟩ ⟨8⟩) ∧
    decode 0x659AB000#32 = .ok (.bmod ⟨9⟩ ⟨10⟩ ⟨11⟩) := by decide

theorem test_decode_exp_gcd :
    decode 0x70123400#32 = .ok (.bpow ⟨1⟩ ⟨2⟩ ⟨3⟩ ⟨4⟩) ∧
    decode 0x71301200#32 = .ok (.bmodpow ⟨3⟩ ⟨0⟩ ⟨1⟩ ⟨2⟩) ∧
    decode 0x78645000#32 = .ok (.bgcd ⟨6⟩ ⟨4⟩ ⟨5⟩) ∧
    decode 0x79121200#32 = .ok (.bxgcd ⟨1⟩ ⟨2⟩ ⟨1⟩ ⟨2⟩) ∧
    decode 0x7A312000#32 = .ok (.bmodinv ⟨3⟩ ⟨1⟩ ⟨2⟩) := by decide

/-- Vectors 30-1, 30-3, 30-4, 30-6, 30-9, 30-10, 30-12, 30-14, 30-15, 30-17, 30-19, 30-23. -/
theorem test_decode_illegal :
    decode 0x00000000#32 = .error .unassignedOpcode ∧ decode 0x01000001#32 = .error .reservedField ∧
    decode 0x010000FF#32 = .error .reservedField ∧ decode 0x10F1FFFF#32 = .error .reservedField ∧
    decode 0x20360000#32 = .error .conditionCode ∧ decode 0x203F0000#32 = .error .conditionCode ∧
    decode 0x53110000#32 = .error .reservedField ∧ decode 0x62312100#32 = .error .reservedField ∧
    decode 0x62312001#32 = .error .reservedField ∧ decode 0x63441200#32 = .error .sameDestination ∧
    decode 0x79111200#32 = .error .sameDestination ∧ decode 0x70301240#32 = .error .reservedField := by decide

/-- R307: the opcodes at both ends of every gap. -/
theorem test_decode_gaps : ∀ op ∈ [0x00, 0x02, 0x0F, 0x1A, 0x1F, 0x23, 0x2F, 0x36, 0x37, 0x3D, 0x3F, 0x43, 0x4F, 0x58,
    0x5F, 0x66, 0x6F, 0x72, 0x77, 0x7B, 0xFF], decode (BitVec.ofNat 32 (op * 2 ^ 24)) = .error .unassignedOpcode := by
  decide

/-- R301, R302: the words of P1 and P5 of 95_test_vectors.md section 3. -/
theorem test_encode : encode (.bld ⟨1⟩ ⟨1⟩ ⟨3⟩) = 0x30113000#32 ∧ encode (.bst ⟨4⟩ ⟨5⟩) = 0x31450000#32 ∧
    encode (.bdivmod ⟨3⟩ ⟨4⟩ ⟨1⟩ ⟨2⟩) = 0x63341200#32 ∧ encode (.lil ⟨13⟩ 0x18) = 0x10D00018#32 ∧
    encode (.bnormu ⟨8⟩ ⟨1⟩ ⟨4⟩) = 0x3C814000#32 := by decide

theorem test_host_door : decodeTableWord 32 0x62312000 = some (.bmul ⟨3⟩ ⟨1⟩ ⟨2⟩) ∧ decodeTableWord 32 0 = none := by decide

/-! ## Assembler (R312, R313) -/

theorem test_assemble : assembleText ["; two lines", "li s1, 0x12345678", "badd B3,b1 , B2 ; sum", ".word 7"] =
    some [0x10105678#32, 0x11101234#32, 0x60312000#32, 0x00000007#32] := by decide
theorem test_assemble_refuses : parseLine "LIL S1, 65536" = none ∧ parseLine "BADD B1, B2, B16" = none ∧
    parseLine "BADD B1, B2" = none := by decide

/-! ## Commands: vectors of 95_test_vectors.md -/

/-- Vectors 42-1. -/
theorem test_lil :
    outS (exec (.lil ⟨1⟩ 0xFFFF) (regs [(1, 0xABCD0000#32)] [])) 1 = some 0x0000FFFF#32 := by decide

/-- Vectors 42-2. -/
theorem test_lih :
    outS (exec (.lih ⟨1⟩ 0x8000) (regs [(1, 0x00000001#32)] [])) 1 = some 0x80000001#32 := by decide

/-- Vectors 42-3. -/
theorem test_sadd :
    outS (exec (.sadd ⟨1⟩ ⟨2⟩ ⟨3⟩) (regs [(2, 0xFFFFFFFF#32), (3, 0x00000001#32)] [])) 1 = some 0x00000000#32 := by decide

/-- Vectors 42-4, 42-5. -/
theorem test_ssub :
    outS (exec (.ssub ⟨1⟩ ⟨2⟩ ⟨3⟩) (regs [(2, 0x00000000#32), (3, 0x00000001#32)] [])) 1 = some 0xFFFFFFFF#32 ∧
    outS (exec (.ssub ⟨1⟩ ⟨2⟩ ⟨2⟩) (regs [(2, 0x000004D2#32)] [])) 1 = some 0x00000000#32 := by decide

/-- Vectors 42-6, 42-7, 42-9. -/
theorem test_sshl :
    outS (exec (.sshl ⟨1⟩ ⟨2⟩ ⟨3⟩) (regs [(2, 0x00000001#32), (3, 0x0000001F#32)] [])) 1 = some 0x80000000#32 ∧
    outS (exec (.sshl ⟨1⟩ ⟨2⟩ ⟨3⟩) (regs [(2, 0x00000001#32), (3, 0x00000020#32)] [])) 1 = some 0x00000000#32 ∧
    outS (exec (.sshl ⟨1⟩ ⟨2⟩ ⟨3⟩) (regs [(2, 0x00000001#32), (3, 0x00000021#32)] [])) 1 = some 0x00000000#32 := by decide

/-- Vectors 42-10, 42-11. -/
theorem test_sshr :
    outS (exec (.sshr ⟨1⟩ ⟨2⟩ ⟨3⟩) (regs [(2, 0xFFFFFFFF#32), (3, 0x00000004#32)] [])) 1 = some 0x0FFFFFFF#32 ∧
    outS (exec (.sshr ⟨1⟩ ⟨2⟩ ⟨3⟩) (regs [(2, 0xFFFFFFFF#32), (3, 0xFFFFFFFF#32)] [])) 1 = some 0x00000000#32 := by decide

/-- Vectors 40-8, 40-9. -/
theorem test_scmp :
    outS (exec (.scmp ⟨1⟩ ⟨2⟩ ⟨3⟩) (regs [(2, 0x80000000#32), (3, 0x7FFFFFFF#32)] [])) 1 = some 0x00000001#32 ∧
    outS (exec (.scmp ⟨1⟩ ⟨2⟩ ⟨3⟩) (regs [(2, 0x00000005#32), (3, 0x00000005#32)] [])) 1 = some 0x00000000#32 := by decide

/-- Vectors 40-18. -/
theorem test_ssel :
    outS (exec (.ssel ⟨1⟩ ⟨2⟩ ⟨3⟩) ((regs [(2, 0x00000005#32), (3, 0x00000009#32)] []).setFlag true)) 1 = some 0x00000005#32 := by decide

/-- Vectors 42-13, 42-15. -/
theorem test_sdiv :
    outS (exec (.sdiv ⟨1⟩ ⟨2⟩ ⟨3⟩) (regs [(2, 0xFFFFFFFF#32), (3, 0x00010000#32)] [])) 1 = some 0x0000FFFF#32 ∧
    outE (exec (.sdiv ⟨1⟩ ⟨2⟩ ⟨3⟩) (regs [(2, 0x00000003#32), (3, 0x00000000#32)] [])) = some 2 := by decide

/-- Vectors 42-17, 42-18. -/
theorem test_smod :
    outS (exec (.smod ⟨1⟩ ⟨2⟩ ⟨3⟩) (regs [(2, 0x80000000#32), (3, 0x00000003#32)] [])) 1 = some 0x00000002#32 ∧
    outE (exec (.smod ⟨1⟩ ⟨2⟩ ⟨3⟩) (regs [(2, 0x00000007#32), (3, 0x00000000#32)] [])) = some 2 := by decide

/-- Vectors 40-20, 40-21, 40-22, 40-23. -/
theorem test_ftst :
    outF (exec (.ftst ⟨3⟩ .gt) (regs [(3, 0xFFFFFFFF#32)] [])) = some false ∧
    outF (exec (.ftst ⟨3⟩ .ge) (regs [(3, 0x00000001#32)] [])) = some true ∧
    outF (exec (.ftst ⟨3⟩ .le) (regs [(3, 0x80000000#32)] [])) = some true ∧
    outF (exec (.ftst ⟨3⟩ .ne) ((regs [(3, 0x00000000#32)] []).setFlag true)) = some false := by decide

/-- Vectors 40-24. -/
theorem test_fpars :
    outF (exec (.fpars ⟨1⟩) ((regs [(1, 0xFFFFFFFE#32)] []).setFlag true)) = some false := by decide

/-- Vectors 40-25, 40-26. -/
theorem test_fparb :
    outF (exec (.fparb ⟨1⟩) ((regs [] [(1, [0x01, 0x00])]).setFlag true)) = some false ∧
    outF (exec (.fparb ⟨1⟩) ((regs [] []).setFlag true)) = some false := by decide

/-- Vectors 20-1, 20-3, 20-4, 20-5, 20-6, 20-7. -/
theorem test_bld :
    outB (exec (.bld ⟨1⟩ ⟨2⟩ ⟨3⟩) ((regs [(2, 4094#32), (3, 2#32)] []).memWrite 4094 [0xaa, 0xbb])) 1 = some [0xaa, 0xbb] ∧
    outB (exec (.bld ⟨1⟩ ⟨2⟩ ⟨3⟩) (regs [(2, 4096#32), (3, 0#32)] [])) 1 = some [] ∧
    outE (exec (.bld ⟨1⟩ ⟨2⟩ ⟨3⟩) (regs [(2, 4097#32), (3, 0#32)] [])) = some 6 ∧
    outE (exec (.bld ⟨1⟩ ⟨2⟩ ⟨3⟩) (regs [(2, 0xFFFFFFFF#32), (3, 1#32)] [])) = some 6 ∧
    outE (exec (.bld ⟨1⟩ ⟨2⟩ ⟨3⟩) (regs [(2, 0#32), (3, 257#32)] [])) = some 5 ∧
    outE (exec (.bld ⟨1⟩ ⟨2⟩ ⟨3⟩) (regs [(2, 5000#32), (3, 257#32)] [])) = some 5 := by decide

/-- Vectors 20-13, 20-14, 20-15, 20-16. -/
theorem test_bst :
    outCode (exec (.bst ⟨1⟩ ⟨2⟩) (regs [(2, 4097#32)] [(1, [])])) = some 6 ∧
    outCode (exec (.bst ⟨1⟩ ⟨2⟩) (regs [(2, 4094#32)] [(1, [0x01, 0x02, 0x03])])) = some 6 ∧
    outM (exec (.bst ⟨1⟩ ⟨2⟩) (regs [(2, 4093#32)] [(1, [0x09, 0x08, 0x07])])) 4093 3 = some [0x09, 0x08, 0x07] ∧
    outCode (exec (.bst ⟨1⟩ ⟨2⟩) (regs [(2, 0xFFFFFFFE#32)] [(1, [0x09, 0x08, 0x07])])) = some 6 := by decide

/-- Vectors 43-1. -/
theorem test_bmov :
    outB (exec (.bmov ⟨1⟩ ⟨2⟩) (regs [] [(1, [0xaa]), (2, [])])) 1 = some [] := by decide

/-- Vectors 43-2. -/
theorem test_blen :
    outS (exec (.blen ⟨1⟩ ⟨2⟩) (regs [] [(2, [0x00, 0x00, 0x00, 0x00, 0x00])])) 1 = some 0x00000005#32 := by decide

/-- Vectors 20-8, 20-9. -/
theorem test_sld :
    outS (exec (.sld ⟨1⟩ ⟨2⟩) ((regs [(2, 4092#32)] []).memWrite 4092 [0x01, 0x02, 0x03, 0x04])) 1 = some 0x01020304#32 ∧
    outE (exec (.sld ⟨1⟩ ⟨2⟩) (regs [(2, 4093#32)] [])) = some 6 := by decide

/-- Vectors 20-10, 20-11. -/
theorem test_sst :
    outM (exec (.sst ⟨1⟩ ⟨2⟩) (regs [(1, 0xA1B2C3D4#32), (2, 1#32)] [])) 1 4 = some [0xa1, 0xb2, 0xc3, 0xd4] ∧
    outCode (exec (.sst ⟨1⟩ ⟨2⟩) (regs [(1, 0xA1B2C3D4#32), (2, 4093#32)] [])) = some 6 := by decide

/-- Vectors 41-3, 41-4, 41-5. -/
theorem test_brsz :
    outB (exec (.brsz ⟨1⟩ ⟨2⟩ ⟨3⟩) (regs [(3, 0x00000002#32)] [(2, [0x0d, 0xec, 0x01])])) 1 = some [0x0d, 0xec] ∧
    outB (exec (.brsz ⟨1⟩ ⟨2⟩ ⟨3⟩) (regs [(3, 0x00000003#32)] [])) 1 = some [0x00, 0x00, 0x00] ∧
    outE (exec (.brsz ⟨1⟩ ⟨2⟩ ⟨3⟩) (regs [(3, 0x00000101#32)] [(2, [0x01])])) = some 5 := by decide

/-- Vectors 41-7, 41-10. -/
theorem test_btrml :
    outB (exec (.btrml ⟨1⟩ ⟨2⟩) (regs [] [(2, [0x00, 0x00, 0x00])])) 1 = some [] ∧
    outB (exec (.btrml ⟨1⟩ ⟨2⟩) (regs [] [(2, [0x00, 0x80, 0x00])])) 1 = some [0x80, 0x00] := by decide

/-- Vectors 41-11, 41-12. -/
theorem test_btrmr :
    outB (exec (.btrmr ⟨1⟩ ⟨2⟩) (regs [] [(2, [0x00, 0x80, 0x00])])) 1 = some [0x00, 0x80] ∧
    outB (exec (.btrmr ⟨1⟩ ⟨2⟩) (regs [] [(2, [0x00, 0x00])])) 1 = some [] := by decide

/-- Vectors 44-18, 44-20, 44-21. -/
theorem test_bnorm :
    outB (exec (.bnorm ⟨1⟩ ⟨2⟩ ⟨3⟩) (regs [(3, 0x00000003#32)] [(2, [0x7f])])) 1 = some [0x00, 0x00, 0x7f] ∧
    outB (exec (.bnorm ⟨1⟩ ⟨2⟩ ⟨3⟩) (regs [(3, 0x00000000#32)] [(2, [0x80])])) 1 = some [] ∧
    outE (exec (.bnorm ⟨1⟩ ⟨2⟩ ⟨3⟩) (regs [(3, 0x0000012C#32)] [(2, [0x80])])) = some 5 := by decide

/-- Vectors 44-22, 44-23. -/
theorem test_bnormu :
    outB (exec (.bnormu ⟨1⟩ ⟨2⟩ ⟨3⟩) (regs [(3, 0x00000003#32)] [(2, [0xff])])) 1 = some [0x00, 0x00, 0xff] ∧
    outB (exec (.bnormu ⟨1⟩ ⟨2⟩ ⟨3⟩) (regs [(3, 0x00000001#32)] [(2, [0x12, 0x34, 0x56])])) 1 = some [0x56] := by decide

/-- Vectors 40-1, 40-5, 40-6. -/
theorem test_bcmp :
    outS (exec (.bcmp ⟨1⟩ ⟨2⟩ ⟨3⟩) (regs [] [(2, [0x31, 0x41]), (3, [0x59, 0x65])])) 1 = some 0xFFFFFFFF#32 ∧
    outE (exec (.bcmp ⟨1⟩ ⟨2⟩ ⟨3⟩) (regs [] [(2, [0x00, 0x01]), (3, [0x01])])) = some 1 ∧
    outS (exec (.bcmp ⟨1⟩ ⟨2⟩ ⟨3⟩) (regs [] [(2, [0x80, 0x00]), (3, [0x7f, 0xff])])) 1 = some 0x00000001#32 := by decide

/-- Vectors 40-10, 40-11, 40-13. -/
theorem test_beq :
    outS (exec (.beq ⟨1⟩ ⟨2⟩ ⟨3⟩) (regs [] [(2, [0x0d, 0xec]), (3, [0x0d, 0xec])])) 1 = some 0x00000001#32 ∧
    outS (exec (.beq ⟨1⟩ ⟨2⟩ ⟨3⟩) (regs [] [(2, [0x00, 0x0d]), (3, [0x0d])])) 1 = some 0x00000000#32 ∧
    outS (exec (.beq ⟨1⟩ ⟨2⟩ ⟨3⟩) (regs [] [(2, [0x80, 0x00, 0x00]), (3, [0x00, 0x00, 0x80])])) 1 = some 0x00000000#32 := by decide

/-- Vectors 40-14, 40-15, 40-16. -/
theorem test_bsel :
    outB (exec (.bsel ⟨1⟩ ⟨2⟩ ⟨3⟩) (regs [] [(2, [0x12, 0x34]), (3, [0xab, 0xcd])])) 1 = some [0xab, 0xcd] ∧
    outB (exec (.bsel ⟨2⟩ ⟨2⟩ ⟨3⟩) ((regs [] [(2, [0x12, 0x34]), (3, [0xab, 0xcd])]).setFlag true)) 2 = some [0x12, 0x34] ∧
    outE (exec (.bsel ⟨1⟩ ⟨2⟩ ⟨3⟩) ((regs [] [(2, [0x12]), (3, [0xab, 0xcd])]).setFlag true)) = some 1 := by decide

/-- Vectors 44-1; and by hand from the rule. -/
theorem test_band :
    outE (exec (.band ⟨1⟩ ⟨2⟩ ⟨3⟩) (regs [] [(2, [0xff]), (3, [0xff, 0xff])])) = some 1 ∧
    outB (exec (.band ⟨1⟩ ⟨2⟩ ⟨3⟩) (regs [] [(2, [0xF0, 0x0F]), (3, [0x3C, 0x3C])])) 1 = some [0x30, 0x0C] := by decide

/-- Vectors 44-2; and by hand from the rule. -/
theorem test_bor :
    outB (exec (.bor ⟨1⟩ ⟨2⟩ ⟨3⟩) (regs [] [])) 1 = some [] ∧
    outB (exec (.bor ⟨1⟩ ⟨2⟩ ⟨3⟩) (regs [] [(2, [0xF0, 0x0F]), (3, [0x3C, 0x3C])])) 1 = some [0xFC, 0x3F] := by decide

/-- Vectors 44-3; and by hand from the rule. -/
theorem test_bxor :
    outB (exec (.bxor ⟨1⟩ ⟨2⟩ ⟨2⟩) (regs [] [(2, [0x5a, 0xa5])])) 1 = some [0x00, 0x00] ∧
    outB (exec (.bxor ⟨1⟩ ⟨2⟩ ⟨3⟩) (regs [] [(2, [0xF0, 0x0F]), (3, [0x3C, 0x3C])])) 1 = some [0xCC, 0x33] := by decide

/-- Vectors 44-4, 44-5. -/
theorem test_blsh1 :
    outB (exec (.blsh1 ⟨1⟩) (regs [] [(1, [0x80])])) 1 = some [0x00] ∧
    outB (exec (.blsh1 ⟨1⟩) (regs [] [(1, [])])) 1 = some [] := by decide

/-- Vectors 44-7. -/
theorem test_brsh1 :
    outB (exec (.brsh1 ⟨1⟩) (regs [] [(1, [0x80, 0x01])])) 1 = some [0x40, 0x00] := by decide

/-- Vectors 44-8, 44-9. -/
theorem test_brsh1s :
    outB (exec (.brsh1s ⟨1⟩) (regs [] [(1, [0x80, 0x01])])) 1 = some [0xc0, 0x00] ∧
    outB (exec (.brsh1s ⟨1⟩) (regs [] [(1, [])])) 1 = some [] := by decide

/-- Vectors 44-10, 44-12, 44-14. -/
theorem test_bshl :
    outB (exec (.bshl ⟨1⟩ ⟨2⟩ ⟨3⟩) (regs [] [(2, [0x12, 0x34]), (3, [])])) 1 = some [0x12, 0x34] ∧
    outB (exec (.bshl ⟨1⟩ ⟨2⟩ ⟨3⟩) (regs [] [(2, [0x12, 0x34]), (3, [0x01, 0x00, 0x00, 0x00, 0x00])])) 1 = some [0x00, 0x00] ∧
    outB (exec (.bshl ⟨2⟩ ⟨2⟩ ⟨2⟩) (regs [] [(2, [0x00, 0x03])])) 2 = some [0x00, 0x18] := by decide

/-- Vectors 44-15, 44-16. -/
theorem test_bshr :
    outB (exec (.bshr ⟨1⟩ ⟨2⟩ ⟨3⟩) (regs [] [(2, [0x80, 0x00]), (3, [0x0f])])) 1 = some [0x00, 0x01] ∧
    outB (exec (.bshr ⟨1⟩ ⟨2⟩ ⟨3⟩) (regs [] [(2, [0x80, 0x00]), (3, [0x00, 0x00, 0x10])])) 1 = some [0x00, 0x00] := by decide

/-- Vectors 45-1, 45-3. -/
theorem test_badd :
    outB (exec (.badd ⟨1⟩ ⟨2⟩ ⟨3⟩) (regs [] [(2, [0xff, 0xff]), (3, [0x01])])) 1 = some [0x00, 0x00] ∧
    outB (exec (.badd ⟨2⟩ ⟨2⟩ ⟨2⟩) (regs [] [(2, [0x40, 0x00])])) 2 = some [0x80, 0x00] := by decide

/-- Vectors 45-4, 45-5. -/
theorem test_bsub :
    outB (exec (.bsub ⟨1⟩ ⟨2⟩ ⟨3⟩) (regs [] [(2, [0x01]), (3, [0x00, 0x02])])) 1 = some [0xff, 0xff] ∧
    outB (exec (.bsub ⟨1⟩ ⟨2⟩ ⟨2⟩) (regs [] [(2, [0x12, 0x34, 0x56])])) 1 = some [0x00, 0x00, 0x00] := by decide

/-- Vectors 45-6, 45-9; and by hand from the rule. -/
theorem test_bmul :
    outB (exec (.bmul ⟨1⟩ ⟨2⟩ ⟨3⟩) (regs [] [(2, [0xff, 0xff]), (3, [0xff, 0xff])])) 1 = some [0xff, 0xfe, 0x00, 0x01] ∧
    outB (exec (.bmul ⟨1⟩ ⟨2⟩ ⟨3⟩) (regs [] [(2, [0x02]), (3, [])])) 1 = some [0x00, 0x00] ∧
    outE (exec (.bmul ⟨1⟩ ⟨2⟩ ⟨3⟩) (withCapacity 3 (regs [] [(2, [0x00, 0x00]), (3, [0x01])]))) = some 5 := by decide

/-- Vectors 45-11, 45-13, 45-14. -/
theorem test_bdivmod :
    outB (exec (.bdivmod ⟨4⟩ ⟨5⟩ ⟨1⟩ ⟨2⟩) (regs [] [(1, [0xff, 0xff]), (2, [0x01])])) 4 = some [0xff, 0xff] ∧
    outB (exec (.bdivmod ⟨4⟩ ⟨5⟩ ⟨1⟩ ⟨2⟩) (regs [] [(1, [0xff, 0xff]), (2, [0x01])])) 5 = some [0x00, 0x00] ∧
    outCode (exec (.bdivmod ⟨4⟩ ⟨5⟩ ⟨1⟩ ⟨2⟩) (regs [] [(1, [0x12, 0x34]), (2, [])])) = some 2 ∧
    outB (exec (.bdivmod ⟨1⟩ ⟨2⟩ ⟨1⟩ ⟨2⟩) (regs [] [(1, [0x01, 0xf1]), (2, [0x0d])])) 1 = some [0x00, 0x26] ∧
    outB (exec (.bdivmod ⟨1⟩ ⟨2⟩ ⟨1⟩ ⟨2⟩) (regs [] [(1, [0x01, 0xf1]), (2, [0x0d])])) 2 = some [0x00, 0x03] := by decide

/-- Vectors 45-15, 45-16. -/
theorem test_bdiv :
    outB (exec (.bdiv ⟨1⟩ ⟨2⟩ ⟨3⟩) (regs [] [(2, [0x01]), (3, [0x00, 0x00, 0x01])])) 1 = some [0x00, 0x00, 0x01] ∧
    outB (exec (.bdiv ⟨1⟩ ⟨2⟩ ⟨2⟩) (regs [] [(2, [0x00, 0x09])])) 1 = some [0x00, 0x01] := by decide

/-- Vectors 45-17, 45-18. -/
theorem test_bmod :
    outB (exec (.bmod ⟨1⟩ ⟨2⟩ ⟨3⟩) (regs [] [(2, [0x12, 0x34, 0x56, 0x78]), (3, [0x00, 0x10])])) 1 = some [0x00, 0x00, 0x00, 0x08] ∧
    outE (exec (.bmod ⟨1⟩ ⟨2⟩ ⟨3⟩) (regs [] [(2, [0x07]), (3, [])])) = some 2 := by decide

/-- Vectors 46-1, 46-5, 46-6, 46-7. -/
theorem test_bpow :
    outB (exec (.bpow ⟨1⟩ ⟨2⟩ ⟨3⟩ ⟨4⟩) (regs [(4, 0x00000001#32)] [(2, [0x00]), (3, [])])) 1 = some [0x01] ∧
    outB (exec (.bpow ⟨1⟩ ⟨2⟩ ⟨3⟩ ⟨4⟩) (regs [(4, 0x00000001#32)] [(2, [0x03]), (3, [0x06])])) 1 = some [0xd9] ∧
    outB (exec (.bpow ⟨1⟩ ⟨2⟩ ⟨3⟩ ⟨4⟩) (regs [(4, 0x00000004#32)] [(2, [0x03]), (3, [0x01, 0x00])])) 1 = some [0x07, 0x30, 0xf4, 0x01] ∧
    outE (exec (.bpow ⟨1⟩ ⟨2⟩ ⟨3⟩ ⟨4⟩) (regs [(4, 0x00000101#32)] [(2, [0x02]), (3, [0x01])])) = some 5 := by decide

/-- Vectors 46-8, 46-10, 46-11. -/
theorem test_bmodpow :
    outB (exec (.bmodpow ⟨1⟩ ⟨2⟩ ⟨3⟩ ⟨4⟩) (regs [] [(2, [0x05]), (3, []), (4, [0x00, 0x07])])) 1 = some [0x00, 0x01] ∧
    outE (exec (.bmodpow ⟨1⟩ ⟨2⟩ ⟨3⟩ ⟨4⟩) (regs [] [(2, [0x05]), (3, [0x03]), (4, [0x00, 0x00])])) = some 2 ∧
    outB (exec (.bmodpow ⟨1⟩ ⟨2⟩ ⟨3⟩ ⟨4⟩) (regs [] [(2, [0x01, 0x00, 0x00]), (3, [0x02]), (4, [0x0d])])) 1 = some [0x09] := by decide

/-- Vectors 46-13, 46-16. -/
theorem test_bgcd :
    outB (exec (.bgcd ⟨1⟩ ⟨2⟩ ⟨3⟩) (regs [] [(2, [0x00]), (3, [0x00, 0x00])])) 1 = some [0x00, 0x00] ∧
    outB (exec (.bgcd ⟨1⟩ ⟨2⟩ ⟨3⟩) (regs [] [(2, [0x01, 0x00]), (3, [0x00, 0xc0])])) 1 = some [0x00, 0x40] := by decide

/-- Vectors 46-18, 46-19, 46-22, 46-23. -/
theorem test_bxgcd :
    outB (exec (.bxgcd ⟨1⟩ ⟨2⟩ ⟨3⟩ ⟨4⟩) (regs [] [(3, [0x00]), (4, [0x09])])) 1 = some [0x00] ∧
    outB (exec (.bxgcd ⟨1⟩ ⟨2⟩ ⟨3⟩ ⟨4⟩) (regs [] [(3, [0x00]), (4, [0x09])])) 2 = some [0x09] ∧
    outB (exec (.bxgcd ⟨1⟩ ⟨2⟩ ⟨3⟩ ⟨4⟩) (regs [] [(3, [0x00]), (4, [0x00])])) 1 = some [0x00] ∧
    outB (exec (.bxgcd ⟨1⟩ ⟨2⟩ ⟨3⟩ ⟨4⟩) (regs [] [(3, [0x00]), (4, [0x00])])) 2 = some [0x00] ∧
    outB (exec (.bxgcd ⟨1⟩ ⟨2⟩ ⟨3⟩ ⟨4⟩) (regs [] [(3, [0x04]), (4, [0x06])])) 1 = some [0x02] ∧
    outB (exec (.bxgcd ⟨1⟩ ⟨2⟩ ⟨3⟩ ⟨4⟩) (regs [] [(3, [0x04]), (4, [0x06])])) 2 = some [0x02] ∧
    outB (exec (.bxgcd ⟨3⟩ ⟨4⟩ ⟨3⟩ ⟨4⟩) (regs [] [(3, [0x00, 0xf0]), (4, [0x2e])])) 3 = some [0x00, 0x0e] ∧
    outB (exec (.bxgcd ⟨3⟩ ⟨4⟩ ⟨3⟩ ⟨4⟩) (regs [] [(3, [0x00, 0xf0]), (4, [0x2e])])) 4 = some [0x00, 0x02] := by decide

/-- Vectors 46-24, 46-26, 46-28. -/
theorem test_bmodinv :
    outB (exec (.bmodinv ⟨1⟩ ⟨2⟩ ⟨3⟩) (regs [] [(2, [0x05]), (3, [0x01])])) 1 = some [0x00] ∧
    outE (exec (.bmodinv ⟨1⟩ ⟨2⟩ ⟨3⟩) (regs [] [(2, [0x04]), (3, [0x00])])) = some 2 ∧
    outB (exec (.bmodinv ⟨1⟩ ⟨2⟩ ⟨3⟩) (regs [] [(2, [0x00, 0x11]), (3, [0x00, 0x00, 0xf1])])) 1 = some [0x00, 0x00, 0x9c] := by decide

/-! ## Run control, exceptions and the step -/

/-- R562 and program P1's end: STATUS 0x2, PC at HALT's index. -/
theorem test_halt : (stateOf (exec .halt start)).busy = false ∧ (stateOf (exec .halt start)).done = true ∧
    (stateOf (exec .halt { start with pc := 11 })).pc = 11 := by decide

/-- Vector 60-1: an illegal word at PC; program P6a: CAUSE 4, STATUS 0x4. -/
theorem test_step_illegal : outE (step (atZero start 0x62312100#32)) = some 4 ∧
    outE (step (atZero start 0x00000000#32)) = some 4 ∧
    statusWord (stateOf (step (atZero start 0x00000000#32))) = 0x4#32 := by decide

/-- Vector 60-4 and program P6b: a fetch at PC = 1024 = IMEM_WORDS; PC stays 1024. -/
theorem test_step_fetch_fault : (stateOf (step { start with pc := 1024 })).cause = 7#4 ∧
    (stateOf (step { start with pc := 1024 })).pc = 1024#16 ∧
    (stateOf (step { start with pc := 1024 })).err = true := by decide

/-- Program P1, index 7: BADD B3, B1, B2 at PC gives [0x8a, 0xa6] and PC + 1. -/
theorem test_step_badd : outB (step (atZero (regs [] [(1, [0x31, 0x41]), (2, [0x59, 0x65])]) 0x60312000#32)) 3 =
      some [0x8A, 0xA6] ∧
    (stateOf (step (atZero (regs [] [(1, [0x31, 0x41]), (2, [0x59, 0x65])]) 0x60312000#32))).pc = 1#16 := by decide

/-- The host's door: the very next step from reset runs the word. -/
theorem test_with_fetch_word : outS (step (State.reset.withFetchWord 32 0x10101234)) 1 = some 0x00001234#32 ∧
    (stateOf (step (State.reset.withFetchWord 32 0x01000000))).done = true := by decide

/-! ## The host port: vectors 10-1 to 10-12, and 20-17 -/

/-- Vectors 10-1 to 10-4 and 10-6. -/
theorem test_host_reads : [0x000#32, 0x004#32, 0x018#32, 0x01C#32, 0x020#32, 0x00C#32, 0x010#32, 0x014#32, 0x008#32,
      0x024#32, 0xFFFC#32].map (hostReadValue State.reset) =
    [0x43544245#32, 0x00000001#32, 0x00000100#32, 0x00001000#32, 0x00000400#32, 0#32, 0#32, 0#32, 0#32, 0#32, 0#32] := by
  decide

/-- Vectors 10-5 and 10-7. -/
theorem test_host_writes : hostReadValue (hostWrite 0x018#32 0xFFFFFFFF#32 State.reset) 0x018#32 = 0x00000100#32 ∧
    hostReadValue (hostWrite 0x014#32 0xABCD1234#32 State.reset) 0x014#32 = 0x00001234#32 := by decide

/-- The state after the transactions of vector 10-8, before the run. -/
def started : State :=
  hostWrite 0x008#32 0x3#32 (hostWrite 0x10000#32 0x01000000#32 (hostWrite 0x014#32 0x0#32 State.reset))

/-- Vectors 10-8 and 10-9: the run ends after one step, with STATUS 0x2, PC 0, IRQ 1; CTRL then reads 0x2. -/
theorem test_host_start : started.busy = true ∧ statusWord (stateOf (step started)) = 0x2#32 ∧
    (stateOf (step started)).pc = 0#16 ∧ irq (stateOf (step started)) = true ∧
    hostReadValue (stateOf (step started)) 0x008#32 = 0x2#32 := by decide

/-- Vectors 10-10 to 10-12. -/
theorem test_host_status : statusWord (hostWrite 0x00C#32 0x4#32 (stateOf (step started))) = 0x2#32 ∧
    statusWord (hostWrite 0x00C#32 0x2#32 (stateOf (step started))) = 0#32 ∧
    irq (hostWrite 0x00C#32 0x2#32 (stateOf (step started))) = false ∧
    irq (stateOf (step (hostWrite 0x008#32 0x1#32 (stateOf (step started))))) = false := by decide

/-- Vector 20-17 and the host reads of program P1: the window and the engine agree on byte order. -/
theorem test_host_window :
    outS (exec (.sld ⟨1⟩ ⟨2⟩) ((hostWrite 0x100008#32 0x11223344#32 (withS State.reset [(2, 9#32)])).memWrite 12 [0x55])) 1 =
      some 0x22334455#32 ∧
    hostReadValue (hostWrite 0x100000#32 0x31415965#32 State.reset) 0x100000#32 = 0x31415965#32 := by decide

/-- R210, R214: reserved addresses, the end of a memory, and a window write while BUSY = 1. -/
theorem test_host_reserved : hostReadValue State.reset 0x20000#32 = 0#32 ∧ hostReadValue State.reset 0x101000#32 = 0#32 ∧
    hostReadValue State.reset 0x11000#32 = 0#32 ∧ hostWrite 0x100000#32 0xFFFFFFFF#32 start = start := by decide

/-! ## Witnesses: the hypotheses of each obligation are met, each clause at a boundary of its range -/

theorem witness_DecodeOfEncodeIsTheCommand : (Instr.bxgcd ⟨15⟩ ⟨0⟩ ⟨15⟩ ⟨15⟩).wf = true := by decide

theorem witness_DecodedWordIsItsEncoding : decode 0x10F0FFFF#32 = .ok (.lil ⟨15⟩ 0xFFFF) := by decide

/-- The engine acts next on a state with an empty schedule, and on the state left when the engine's event is taken off. -/
theorem witness_EngineNext (s : State) (h : s.schedule = []) :
    EngineNext s s ∧ EngineNext { s with schedule := [.engine, .reset] } { s with schedule := [.reset] } :=
  ⟨.inl ⟨h, rfl⟩, .inr ⟨_, rfl, rfl⟩⟩

theorem witness_UnassignedOpcodesAreIllegal :
    EngineNext (atZero start 0#32) (atZero start 0#32) ∧
    EngineNext { atZero start 0#32 with schedule := [.engine, .reset] } { atZero start 0#32 with schedule := [.reset] } ∧
    (∀ es ∈ [[], [Event.reset]], ({ atZero start 0#32 with schedule := es } : State).busy = true ∧
      ({ atZero start 0#32 with schedule := es } : State).pc.toNat <
        ({ atZero start 0#32 with schedule := es } : State).cfg.imemWords ∧
      ({ atZero start 0#32 with schedule := es } : State).imemWord
        ({ atZero start 0#32 with schedule := es } : State).pc.toNat = 0#32) :=
  ⟨(witness_EngineNext _ rfl).1, (witness_EngineNext _ rfl).2, by decide⟩

theorem witness_ReservedFieldsAndValueConstraints :
    (opField 0x01000001#32 = Instr.halt.opcode ∧ Instr.halt.format.mask.getLsbD 0 = true ∧
      (0x01000001#32).getLsbD 0 = true) ∧
    (opField 0x01800000#32 = Instr.halt.opcode ∧ Instr.halt.format.mask.getLsbD 23 = true ∧
      (0x01800000#32).getLsbD 23 = true) ∧
    (opField 0x20360000#32 = 0x20#8 ∧ reservedClean .R2 0x20360000#32 = true ∧ 6 ≤ (f2Field 0x20360000#32).toNat) ∧
    (opField 0x63FF0000#32 = 0x63#8 ∧ reservedClean .R4 0x63FF0000#32 = true ∧
      f1Field 0x63FF0000#32 = f2Field 0x63FF0000#32) ∧
    (opField 0x79001200#32 = 0x79#8 ∧ reservedClean .R4 0x79001200#32 = true ∧
      f1Field 0x79001200#32 = f2Field 0x79001200#32) := by decide

/-- A run at the last word of IMEM, which holds HALT; with the schedule given. -/
def atLast (es : List Event) : State := { start.setImemWord 1023 0x01000000#32 with pc := 1023#16, schedule := es }

theorem witness_StepRunsTheDecodedCommand :
    ∀ es ∈ [[], [Event.engine, Event.reset]], (atLast es).busy = true ∧ (atLast es).pc.toNat < (atLast es).cfg.imemWords ∧
      decode ((atLast es).imemWord (atLast es).pc.toNat) = .ok .halt ∧ (atLast es).schedule = es := by decide

/-- PC one past the end, an illegal word at PC, and the last word of IMEM; with an empty schedule and with the engine's
event at its head. -/
theorem witness_FetchAndDecodeExceptions :
    (EngineNext { start with pc := 1024#16 } { start with pc := 1024#16 } ∧
      EngineNext { start with pc := 1024#16, schedule := [.engine, .reset] }
        { start with pc := 1024#16, schedule := [.reset] } ∧
      ({ start with pc := 1024#16 } : State).busy = true ∧
      ({ start with pc := 1024#16 } : State).cfg.imemWords ≤ ({ start with pc := 1024#16 } : State).pc.toNat) ∧
    (EngineNext (atZero start 0x01000001#32) (atZero start 0x01000001#32) ∧
      (atZero start 0x01000001#32).busy = true ∧
      (atZero start 0x01000001#32).pc.toNat < (atZero start 0x01000001#32).cfg.imemWords ∧
      decode ((atZero start 0x01000001#32).imemWord (atZero start 0x01000001#32).pc.toNat) = .error .reservedField) ∧
    (EngineNext (atLast [.engine]) (atLast []) ∧ (atLast []).busy = true ∧
      (atLast []).pc.toNat < (atLast []).cfg.imemWords ∧ (atLast []).cause ≠ Exn.fetchFault.code ∧
      ∃ t, step (atLast [.engine]) = .next t) :=
  ⟨⟨(witness_EngineNext _ rfl).1, (witness_EngineNext { start with pc := 1024#16 } rfl).2, by decide, by decide⟩,
    ⟨(witness_EngineNext _ rfl).1, by decide, by decide, by decide⟩,
    .inr ⟨_, rfl, rfl⟩, by decide, by decide, by decide, _, rfl⟩

theorem witness_ScheduleDecidesWhoActs :
    (State.reset.busy = false ∧ State.reset.schedule = []) ∧
    (∀ e ∈ [Event.engine, .hostWrite 0x8#32 1#32, .hostRead 0x100000#32, .reset],
      ({ State.reset with schedule := [e] } : State).busy = false ∧
      ({ State.reset with schedule := [e] } : State).schedule = e :: []) := by decide

theorem witness_PcAdvancesByOneOrStays :
    (EngineNext (atLast [.engine]) (atLast []) ∧ (atLast []).cfg.valid ∧ (atLast []).busy = true ∧
      ∃ t, step (atLast [.engine]) = .next t) ∧
    (EngineNext (atZero start 0x10101234#32) (atZero start 0x10101234#32) ∧ (atZero start 0x10101234#32).cfg.valid ∧
      (atZero start 0x10101234#32).busy = true ∧ ∃ t, step (atZero start 0x10101234#32) = .next t) :=
  ⟨⟨.inr ⟨_, rfl, rfl⟩, by decide, by decide, _, rfl⟩, ⟨.inl ⟨rfl, rfl⟩, by decide, by decide, _, rfl⟩⟩

/-- A command that raises, one that ends the run, and one that completes; also a store and two destinations. -/
theorem witness_CommandOutcomes :
    (∃ t, exec (.bmodinv ⟨1⟩ ⟨2⟩ ⟨3⟩) (regs [] [(2, [4]), (3, [12])]) = .next t) ∧ (∃ t, exec .halt start = .next t) ∧
    (∃ t, exec (.sadd ⟨1⟩ ⟨2⟩ ⟨3⟩) start = .next t) :=
  ⟨⟨_, rfl⟩, ⟨_, rfl⟩, ⟨_, rfl⟩⟩

theorem witness_CommandsChangeOnlyTheirDestinations :
    ((∃ t, exec (.sst ⟨1⟩ ⟨2⟩) (regs [(2, 4092#32)] []) = .next t) ∧
      storeRange (.sst ⟨1⟩ ⟨2⟩) (regs [(2, 4092#32)] []) = some (4092, 4)) ∧
    ((∃ t, exec (.bxgcd ⟨1⟩ ⟨2⟩ ⟨3⟩ ⟨4⟩) start = .next t) ∧ (⟨0⟩ : BReg) ∉ bignumDests (.bxgcd ⟨1⟩ ⟨2⟩ ⟨3⟩ ⟨4⟩) ∧
      scalarDest (.bxgcd ⟨1⟩ ⟨2⟩ ⟨3⟩ ⟨4⟩) ≠ some ⟨0⟩ ∧ writesFlag (.bxgcd ⟨1⟩ ⟨2⟩ ⟨3⟩ ⟨4⟩) = false ∧
      storeRange (.bxgcd ⟨1⟩ ⟨2⟩ ⟨3⟩ ⟨4⟩) start = none) := by
  refine ⟨⟨⟨_, rfl⟩, by decide⟩, ⟨_, rfl⟩, by decide, by decide, by decide, by decide⟩

theorem witness_FlagWritersAndReaders :
    ((∃ t, exec (.ftst ⟨1⟩ .eq) start = .next t) ∧ readsFlag (.ftst ⟨1⟩ .eq) = false ∧ writesFlag (.ftst ⟨1⟩ .eq) = true) ∧
    ((∃ t, exec (.bcmp ⟨1⟩ ⟨2⟩ ⟨3⟩) start = .next t) ∧ readsFlag (.bcmp ⟨1⟩ ⟨2⟩ ⟨3⟩) = false ∧
      writesFlag (.bcmp ⟨1⟩ ⟨2⟩ ⟨3⟩) = false) := by
  refine ⟨⟨⟨_, rfl⟩, by decide, by decide⟩, ⟨_, rfl⟩, by decide, by decide⟩

/-- The smallest and the largest configuration of R7 to R9. -/
theorem witness_InvariantAtReset : ({ bnMaxBytes := 1, dmemBytes := 4, imemWords := 1 } : Config).valid ∧
    ({ bnMaxBytes := 65535, dmemBytes := 1048576, imemWords := 16384 } : Config).valid := by decide

/-- A state in the middle of a run, with words and bytes listed, meets the invariant, and its step answers a next state. -/
theorem witness_EveryStepKeepsTheInvariant :
    Inv ((atZero start 0x10101234#32).memWrite 4094 [1, 2]) ∧
    ∃ t, step ((atZero start 0x10101234#32).memWrite 4094 [1, 2]) = .next t := by
  refine ⟨⟨by decide, fun r => ?_, by decide, by decide, by decide, by decide, by decide, by decide, by decide, by decide,
    by decide⟩, _, rfl⟩
  have h : ((atZero start 0x10101234#32).memWrite 4094 [1, 2]).B r = [] := State.B_startRun State.reset r
  rw [h]; exact Nat.zero_le _

theorem witness_EveryRunEnds : (atLast []).cfg.valid ∧ (atLast []).busy = true ∧ (atLast []).schedule = [] := by decide

theorem witness_ResetLeavesTheSpecValues : ({ start with schedule := [.reset] } : State).schedule = .reset :: [] := by decide

theorem witness_StartClearsTheRegisters : State.reset.busy = false ∧ (0x1#32).getLsbD 0 = true := by decide

theorem witness_ControlRegister : (start.busy = true ∧ (0x3#32).getLsbD 0 = true) ∧
    (State.reset.busy = false ∧ (0x2#32).getLsbD 0 = false) ∧ (State.reset.busy = false ∧ (0x3#32).getLsbD 0 = true) := by
  decide

/-- A write that clears the one bit that is set, for DONE and for ERR, in a state whose IRQ output is 1; and START. -/
theorem witness_StatusRegister :
    (irq { State.reset with irqEn := true, done := true } = true ∧ (0x2#32).getLsbD 1 = true ∧
      ({ State.reset with irqEn := true, done := true } : State).err = false) ∧
    (irq { State.reset with irqEn := true, err := true } = true ∧ (0x4#32).getLsbD 2 = true ∧
      ({ State.reset with irqEn := true, err := true } : State).done = false) ∧
    (({ State.reset with irqEn := true, err := true } : State).busy = false ∧ (0x3#32).getLsbD 0 = true) := by decide

theorem witness_ReadOnlyAndReservedRegisters :
    (∀ a ∈ [0x24#32, 0xFFFF#32], 0x24 ≤ a.toNat ∧ a.toNat < 0x10000) ∧
    (∀ a ∈ [0x20000#32, 0xFFFFF#32], 0x20000 ≤ a.toNat ∧ a.toNat < 0x100000) ∧
    (∀ a ∈ [0x200000#32, 0xFFFFFFFF#32], 0x200000 ≤ a.toNat) ∧
    (0x100003#32).toNat / 4 = (0x100000#32).toNat / 4 := by simp

theorem witness_PcRegister : State.reset.busy = false ∧ start.busy = true := by decide

theorem witness_WindowsClosedDuringARun : start.busy = true ∧
    (∀ a ∈ [0x10000#32, 0x1FFFF#32], 0x10000 ≤ a.toNat ∧ a.toNat < 0x20000) ∧
    (∀ a ∈ [0x100000#32, 0x1FFFFF#32], 0x100000 ≤ a.toNat ∧ a.toNat < 0x200000) ∧
    (atLast []).busy = true ∧ (atLast []).draws = start.draws :=
  ⟨rfl, by simp, by simp, rfl, rfl⟩

/-- The first and the last word of DMEM, the first offset past it, the last offset of the window, and a run. -/
theorem witness_DmemWindow : State.reset.busy = false ∧ start.busy = true ∧
    (∀ a ∈ [0, 4092], a % 4 = 0 ∧ a < 0x100000 ∧ a < State.reset.cfg.dmemBytes) ∧
    (∀ a ∈ [4096, 0xFFFFC], a % 4 = 0 ∧ a < 0x100000 ∧ State.reset.cfg.dmemBytes ≤ a) := by decide

theorem witness_ImemWindow : State.reset.busy = false ∧ start.busy = true ∧ State.reset.pc.toNat = 0 ∧
    (∀ i ∈ [0, 1023], i < 0x4000 ∧ i < State.reset.cfg.imemWords) ∧
    (∀ i ∈ [1024, 0x3FFF], i < 0x4000 ∧ State.reset.cfg.imemWords ≤ i) := by decide

theorem witness_OneByteOrderEverywhere :
    (regs [(2, 4092#32), (3, 4#32)] []).cfg.valid ∧ 4 ≤ (regs [(2, 4092#32), (3, 4#32)] []).cfg.bnMaxBytes ∧
    ((regs [(2, 4092#32), (3, 4#32)] []).S ⟨3⟩).toNat = 4 ∧ ((regs [(2, 4092#32), (3, 4#32)] []).S ⟨2⟩).toNat % 4 = 0 ∧
    ((regs [(2, 4092#32), (3, 4#32)] []).S ⟨2⟩).toNat + 4 ≤ (regs [(2, 4092#32), (3, 4#32)] []).cfg.dmemBytes ∧
    State.reset.busy = false ∧ State.reset.cfg = (regs [(2, 4092#32), (3, 4#32)] []).cfg ∧
    SameMemory (regs [(2, 4092#32), (3, 4#32)] []) State.reset :=
  ⟨by decide, by decide, by decide, by decide, by decide, by decide, by decide, fun _ => rfl⟩

theorem witness_IdleRegistersNeverReachTheHost :
    let s : State := { State.reset with schedule := [.hostWrite 0x10000#32 0x01000000#32, .hostWrite 0x8#32 1#32, .engine] }
    s.busy = false ∧ (∃ t : State, Host.Core.run core 3 s = .next t) ∧
    ∃ t : State, Host.Core.run core 3
      ({ s with sreg := Vector.replicate 16 7#32, breg := Vector.replicate 16 [1], flag := true } : State) = .next t :=
  ⟨rfl, ⟨_, rfl⟩, ⟨_, rfl⟩⟩

theorem witness_ScalarDivision :
    ((regs [(3, 1#32)] []).S ⟨3⟩).toNat ≠ 0 ∧ ((regs [(3, 0xFFFFFFFF#32)] []).S ⟨3⟩).toNat ≠ 0 ∧
    (start.S ⟨3⟩).toNat = 0 := by decide

/-- Equal lengths (none and 2 bytes), unequal lengths, and equal-length strings one below the other. -/
theorem witness_BcmpComparesEqualLengths :
    (start.B ⟨2⟩).length = (start.B ⟨3⟩).length ∧
    ((regs [] [(2, [1, 2]), (3, [1, 3])]).B ⟨2⟩).length = ((regs [] [(2, [1, 2]), (3, [1, 3])]).B ⟨3⟩).length ∧
    ((regs [] [(2, [1])]).B ⟨2⟩).length ≠ ((regs [] [(2, [1])]).B ⟨3⟩).length ∧
    ([0x01, 0xFF] : ByteString).length = ([0x02, 0x00] : ByteString).length ∧
    val [0x01, 0xFF] < val [0x02, 0x00] := by decide

theorem witness_BselSelectsByFlag : (start.B ⟨2⟩).length = (start.B ⟨3⟩).length ∧
    ((regs [] [(2, [1]), (3, [2])]).B ⟨2⟩).length = ((regs [] [(2, [1]), (3, [2])]).B ⟨3⟩).length ∧
    ((regs [] [(2, [1])]).B ⟨2⟩).length ≠ ((regs [] [(2, [1])]).B ⟨3⟩).length := by decide

/-- n = 257; n = 0 at 4097; n = 256 at 3840, n = 0 at 4096. -/
theorem witness_BldLoadsBytes :
    start.cfg.bnMaxBytes < ((regs [(3, 257#32)] []).S ⟨3⟩).toNat ∧
    (((regs [(2, 4097#32)] []).S ⟨3⟩).toNat ≤ start.cfg.bnMaxBytes ∧
      start.cfg.dmemBytes < ((regs [(2, 4097#32)] []).S ⟨2⟩).toNat + ((regs [(2, 4097#32)] []).S ⟨3⟩).toNat) ∧
    (((regs [(2, 3840#32), (3, 256#32)] []).S ⟨3⟩).toNat ≤ start.cfg.bnMaxBytes ∧
      ((regs [(2, 3840#32), (3, 256#32)] []).S ⟨2⟩).toNat + ((regs [(2, 3840#32), (3, 256#32)] []).S ⟨3⟩).toNat ≤
        start.cfg.dmemBytes) ∧
    ((regs [(2, 4096#32)] []).S ⟨2⟩).toNat + ((regs [(2, 4096#32)] []).S ⟨3⟩).toNat ≤ start.cfg.dmemBytes := by decide

theorem witness_BstStoresBytes :
    ((regs [(2, 4093#32)] [(1, [9, 8, 7])]).S ⟨2⟩).toNat + ((regs [(2, 4093#32)] [(1, [9, 8, 7])]).B ⟨1⟩).length ≤
      start.cfg.dmemBytes ∧
    ((regs [(2, 4096#32)] []).S ⟨2⟩).toNat + ((regs [(2, 4096#32)] []).B ⟨1⟩).length ≤ start.cfg.dmemBytes ∧
    start.cfg.dmemBytes < ((regs [(2, 4097#32)] []).S ⟨2⟩).toNat + ((regs [(2, 4097#32)] []).B ⟨1⟩).length := by decide

theorem witness_SldAndSstMoveWords : ((regs [(2, 4092#32)] []).S ⟨2⟩).toNat + 4 ≤ start.cfg.dmemBytes ∧
    start.cfg.dmemBytes < ((regs [(2, 4093#32)] []).S ⟨2⟩).toNat + 4 := by decide

theorem witness_BrszKeepsTheFirstBytes : ((regs [(3, 256#32)] []).S ⟨3⟩).toNat ≤ start.cfg.bnMaxBytes ∧
    start.cfg.bnMaxBytes < ((regs [(3, 257#32)] []).S ⟨3⟩).toNat := by decide

theorem witness_BitwiseCommands : (start.B ⟨2⟩).length = (start.B ⟨3⟩).length ∧
    ((regs [] [(2, [1])]).B ⟨2⟩).length ≠ ((regs [] [(2, [1])]).B ⟨3⟩).length ∧
    ((regs [] [(2, [1]), (3, [2])]).B ⟨2⟩)[0]? = some 1#8 ∧ ((regs [] [(2, [1]), (3, [2])]).B ⟨3⟩)[0]? = some 2#8 := by decide

theorem witness_OneBitShifts : ((regs [] [(1, [0x80])]).B ⟨1⟩).length ≠ 0 := by decide

/-- n = 256 and n = 257; a source as long as n, one longer. -/
theorem witness_NormalizeCommands : ((regs [(3, 256#32)] []).S ⟨3⟩).toNat ≤ start.cfg.bnMaxBytes ∧
    start.cfg.bnMaxBytes < ((regs [(3, 257#32)] []).S ⟨3⟩).toNat ∧
    ((regs [(3, 1#32)] [(2, [0x80])]).B ⟨2⟩).length ≤ ((regs [(3, 1#32)] [(2, [0x80])]).S ⟨3⟩).toNat ∧
    ((regs [(3, 1#32)] [(2, [0x80, 0])]).S ⟨3⟩).toNat < ((regs [(3, 1#32)] [(2, [0x80, 0])]).B ⟨2⟩).length := by decide

theorem witness_BmulIsExact :
    2 * max ((regs [] [(2, [1]), (3, [2])]).B ⟨2⟩).length ((regs [] [(2, [1]), (3, [2])]).B ⟨3⟩).length ≤
      (withCapacity 2 (regs [] [(2, [1]), (3, [2])])).cfg.bnMaxBytes ∧
    (withCapacity 1 (regs [] [(2, [1]), (3, [2])])).cfg.bnMaxBytes <
      2 * max ((regs [] [(2, [1]), (3, [2])]).B ⟨2⟩).length ((regs [] [(2, [1]), (3, [2])]).B ⟨3⟩).length := by decide

theorem witness_BignumDivision : ((⟨4⟩ : BReg) ≠ ⟨5⟩ ∧ val ((regs [] [(2, [1])]).B ⟨2⟩) ≠ 0) ∧
    (val (start.B ⟨2⟩) = 0 ∧ val ((regs [] [(2, [0, 0])]).B ⟨2⟩) = 0) := by decide

theorem witness_DivisionAndSumRoundTrips : val ((regs [] [(2, [1])]).B ⟨2⟩) ≠ 0 ∧
    (((regs [] [(2, [1]), (3, [2])]).B ⟨3⟩).length ≤ ((regs [] [(2, [1]), (3, [2])]).B ⟨2⟩).length ∧
      (⟨1⟩ : BReg) ≠ ⟨3⟩) := by decide

theorem witness_DividerRoundsGiveTheQuotient : 0xFFFFFFFF < 2 ^ 32 ∧ (1 : Nat) ≠ 0 ∧ val [0x01] ≠ 0 := by decide

theorem witness_ProductAndPowerRounds : (497 : Nat) ≠ 0 ∧ 15 < 2 ^ 4 ∧ (1 : Nat) ≠ 0 ∧ 0 < 2 ^ 0 := by decide

theorem witness_PowerCommands : ((regs [(4, 256#32)] []).S ⟨4⟩).toNat ≤ start.cfg.bnMaxBytes ∧
    start.cfg.bnMaxBytes < ((regs [(4, 257#32)] []).S ⟨4⟩).toNat ∧ val ((regs [] [(4, [1])]).B ⟨4⟩) ≠ 0 ∧
    val (start.B ⟨4⟩) = 0 := by decide

theorem witness_GcdCommands : (⟨1⟩ : BReg) ≠ ⟨2⟩ := by decide

theorem witness_CanonicalCoefficientIsUnique : IsCanonical 4 6 2 ∧ IsCanonical 7 0 1 ∧ IsCanonical 0 0 0 := by
  refine ⟨?_, ?_, ?_⟩ <;> unfold IsCanonical <;> decide

theorem witness_BmodinvFindsTheInverse : val (start.B ⟨3⟩) = 0 ∧
    (val ((regs [] [(2, [4]), (3, [12])]).B ⟨3⟩) ≠ 0 ∧
      Nat.gcd (val ((regs [] [(2, [4]), (3, [12])]).B ⟨2⟩)) (val ((regs [] [(2, [4]), (3, [12])]).B ⟨3⟩)) ≠ 1) ∧
    (val ((regs [] [(2, [3]), (3, [7])]).B ⟨3⟩) ≠ 0 ∧
      Nat.gcd (val ((regs [] [(2, [3]), (3, [7])]).B ⟨2⟩)) (val ((regs [] [(2, [3]), (3, [7])]).B ⟨3⟩)) = 1) ∧
    (val ((regs [] [(3, [1])]).B ⟨3⟩) ≠ 0 ∧
      Nat.gcd (val ((regs [] [(3, [1])]).B ⟨2⟩)) (val ((regs [] [(3, [1])]).B ⟨3⟩)) = 1) := by decide

end Sys2Proof.Tests
end

section
/-! SUPPORT. The host's address map and register block, one lemma per register: what a read of it returns and what a write
to it does (10_state.md R130 to R137, 20_memory.md R210, R211). Proofs about the host port cite these and unfold neither
hostTarget nor the register block. -/

namespace Sys2Proof.Machine

/-! ## The address map -/

/-- Address bits 1:0 name no other target (R211). -/
theorem hostTarget_congr {a b : Word} (h : a.toNat / 4 = b.toNat / 4) : hostTarget a = hostTarget b := by
  simp only [hostTarget, h]

theorem hostTarget_register {addr : Word} (h : addr.toNat < 0x10000) :
    hostTarget addr = .register (addr.toNat / 4 * 4) := by
  have ha : addr.toNat / 4 * 4 < 0x10000 := by omega
  simp only [hostTarget, if_pos ha]

/-- The two gaps of the address map (R210). -/
theorem hostTarget_reserved {addr : Word}
    (h : (0x20000 ≤ addr.toNat ∧ addr.toNat < 0x100000) ∨ 0x200000 ≤ addr.toNat) : hostTarget addr = .reserved := by
  have notRegister : ¬ addr.toNat / 4 * 4 < 0x10000 := by omega
  have notImem : ¬ addr.toNat / 4 * 4 < 0x20000 := by omega
  have notDmem : ¬ (0x100000 ≤ addr.toNat / 4 * 4 ∧ addr.toNat / 4 * 4 < 0x200000) := by omega
  simp only [hostTarget, if_neg notRegister, if_neg notImem, if_neg notDmem]

theorem hostReadValue_congr {a b : Word} (s : State) (h : hostTarget a = hostTarget b) :
    hostReadValue s a = hostReadValue s b := by
  simp only [hostReadValue, h]

theorem hostWrite_congr {a b : Word} (v : Word) (s : State) (h : hostTarget a = hostTarget b) :
    hostWrite a v s = hostWrite b v s := by
  simp only [hostWrite, h]

theorem hostReadValue_register {s : State} {addr : Word} {offset : Nat} (h : hostTarget addr = .register offset) :
    hostReadValue s addr = registerRead s offset := by
  simp only [hostReadValue, h]

theorem hostWrite_register {addr : Word} {offset : Nat} (h : hostTarget addr = .register offset) (v : Word) (s : State) :
    hostWrite addr v s = registerWrite offset v s := by
  simp only [hostWrite, h]

theorem hostReadValue_reserved {s : State} {addr : Word} (h : hostTarget addr = .reserved) :
    hostReadValue s addr = 0#32 := by
  simp only [hostReadValue, h]

theorem hostWrite_reserved {addr : Word} (h : hostTarget addr = .reserved) (v : Word) (s : State) :
    hostWrite addr v s = s := by
  simp only [hostWrite, h]

/-! ## Reads of the register block -/

@[simp] theorem hostReadValue_id (s : State) : hostReadValue s 0x000#32 = Config.idValue := rfl
@[simp] theorem hostReadValue_version (s : State) : hostReadValue s 0x004#32 = Config.versionValue := rfl
@[simp] theorem hostReadValue_ctrl (s : State) : hostReadValue s 0x008#32 = ctrlWord s := rfl
@[simp] theorem hostReadValue_status (s : State) : hostReadValue s 0x00C#32 = statusWord s := rfl
@[simp] theorem hostReadValue_cause (s : State) : hostReadValue s 0x010#32 = s.cause.setWidth 32 := rfl
@[simp] theorem hostReadValue_pc (s : State) :
    hostReadValue s 0x014#32 = (if s.busy then Config.busyPcRead s.draws else s.pc).setWidth 32 := rfl
@[simp] theorem hostReadValue_cfgBn (s : State) : hostReadValue s 0x018#32 = BitVec.ofNat 32 s.cfg.bnMaxBytes := rfl
@[simp] theorem hostReadValue_cfgDmem (s : State) : hostReadValue s 0x01C#32 = BitVec.ofNat 32 s.cfg.dmemBytes := rfl
@[simp] theorem hostReadValue_cfgImem (s : State) : hostReadValue s 0x020#32 = BitVec.ofNat 32 s.cfg.imemWords := rfl

/-- Past the last register every offset reads 0 (R137). -/
theorem registerRead_reserved (s : State) {offset : Nat} (h : 0x24 ≤ offset) : registerRead s offset = 0#32 := by
  unfold registerRead
  split
  case h_10 => rfl
  all_goals omega

/-! ## Writes of the register block -/

@[simp] theorem hostWrite_ctrl (v : Word) (s : State) : hostWrite 0x008#32 v s = ctrlWrite v s := rfl
@[simp] theorem hostWrite_status (v : Word) (s : State) : hostWrite 0x00C#32 v s = statusWrite v s := rfl
@[simp] theorem hostWrite_pc (v : Word) (s : State) : hostWrite 0x014#32 v s = pcWrite v s := rfl

/-- Only CTRL, STATUS and PC are writable (R136, R137). -/
theorem registerWrite_readOnly {offset : Nat} (h : offset ∉ [0x008, 0x00C, 0x014]) (v : Word) (s : State) :
    registerWrite offset v s = s := by
  unfold registerWrite
  split
  case h_4 => rfl
  all_goals simp at h

theorem hostWrite_readOnly {addr : Word} (h : addr.toNat < 0x10000) (hro : addr.toNat / 4 * 4 ∉ [0x008, 0x00C, 0x014])
    (v : Word) (s : State) : hostWrite addr v s = s :=
  (hostWrite_register (hostTarget_register h) v s).trans (registerWrite_readOnly hro v s)

/-- A CTRL write that is no accepted START sets IRQ_EN alone (R131). -/
theorem ctrlWrite_noStart {v : Word} {s : State} (h : s.busy = true ∨ v.getLsbD 0 = false) :
    ctrlWrite v s = { s with irqEn := v.getLsbD 1 } := by
  rcases h with hb | hv
  · simp only [ctrlWrite, hb, Bool.not_true, Bool.and_false, Bool.false_eq_true, if_false]
  · simp only [ctrlWrite, hv, Bool.false_and, Bool.false_eq_true, if_false]

/-- An accepted START follows the update of IRQ_EN in the same write (R131, R133). -/
theorem ctrlWrite_start {v : Word} {s : State} (hb : s.busy = false) (hv : v.getLsbD 0 = true) :
    ctrlWrite v s = { s with irqEn := v.getLsbD 1 }.startRun := by
  simp only [ctrlWrite, hb, hv, Bool.not_false, Bool.and_self, if_true]

theorem pcWrite_idle {s : State} (h : s.busy = false) (v : Word) : pcWrite v s = { s with pc := v.setWidth 16 } := by
  simp [pcWrite, h]

theorem pcWrite_busy {s : State} (h : s.busy = true) (v : Word) : pcWrite v s = s := by
  simp [pcWrite, h]

end Sys2Proof.Machine
end

section
/-! SUPPORT. What a command has to do with F (10_state.md R109): a command that does not read F commutes with setting it. -/

namespace Sys2Proof.Machine

/-- The answer with F set to b in the next state. -/
def withFlag (b : Bool) : Result → Result
  | .next t => .next (t.setFlag b)
  | .fault r => .fault r
  | .refused r => .refused r

@[simp] theorem withFlag_next (b : Bool) (t : State) : withFlag b (.next t) = .next (t.setFlag b) := rfl

/-! ## The checks read no flag -/

section
variable {s : State} {b : Bool} {k k' : Result}

theorem if_setFlag {p : Prop} [Decidable p] {r r' : Result} (hr : r' = withFlag b r) (hk : k' = withFlag b k) :
    (if p then r' else k') = withFlag b (if p then r else k) := by
  rw [hr, hk, apply_ite (withFlag b)]

theorem requireDmem_setFlag {addr n : Nat} (h : k' = withFlag b k) :
    requireDmem addr n (s.setFlag b) k' = withFlag b (requireDmem addr n s k) := if_setFlag h rfl

theorem requireCapacity_setFlag {n : Nat} (h : k' = withFlag b k) :
    requireCapacity n (s.setFlag b) k' = withFlag b (requireCapacity n s k) := if_setFlag rfl h

theorem requireSameLength_setFlag {x y : ByteString} (h : k' = withFlag b k) :
    requireSameLength x y (s.setFlag b) k' = withFlag b (requireSameLength x y s k) := if_setFlag rfl h

theorem requireNonzero_setFlag {v : Nat} (h : k' = withFlag b k) :
    requireNonzero v (s.setFlag b) k' = withFlag b (requireNonzero v s k) := if_setFlag rfl h

end

/-! ## Commands -/

/-- A command that neither reads nor writes F answers the same from every value of F, F itself apart: its operands are
registers and memory, and its checks read no flag. -/
theorem exec_setFlag {i : Instr} (hr : readsFlag i = false) (hw : writesFlag i = false) (s : State) (b : Bool) :
    exec i (s.setFlag b) = withFlag b (exec i s) := by
  cases i with
  | ssel | bsel => cases hr
  | ftst | fpars | fparb => cases hw
  | halt | lil | lih | sadd | ssub | sshl | sshr | scmp | blen | beq => rfl
  | bmov | btrml | btrmr | blsh1 | brsh1 | brsh1s | bshl | bshr | badd | bsub | bgcd | bxgcd => rfl
  | bst | sld | sst => exact requireDmem_setFlag rfl
  | bld => exact requireCapacity_setFlag (requireDmem_setFlag rfl)
  | brsz | bnorm | bnormu | bmul | bpow => exact requireCapacity_setFlag rfl
  | bcmp | band | bor | bxor => exact requireSameLength_setFlag rfl
  | sdiv | smod | bdivmod | bdiv | bmod | bmodpow => exact requireNonzero_setFlag rfl
  | bmodinv => exact requireNonzero_setFlag (if_setFlag rfl rfl)

/-- FTST, FPARS and FPARB overwrite F and read it nowhere, so what F was makes no difference at all. -/
theorem exec_setFlag_of_writesFlag {i : Instr} (hw : writesFlag i = true) (s : State) (b : Bool) :
    exec i (s.setFlag b) = exec i s := by
  cases i with
  | ftst | fpars | fparb => rfl
  | _ => cases hw

/-- F changes only under a command of the writers' list. -/
theorem exec_keeps_flag {i : Instr} {s t : State} (h : exec i s = .next t) (hw : writesFlag i = false) :
    t.flag = s.flag := by
  cases exec_effect h with
  | flag b hs hb hf hm hh => exact absurd (hf.symm.trans hw) (by decide)
  | scalar | bignum | bignums | store | halt | raised => rfl

end Sys2Proof.Machine
end

section
/-! SUPPORT. How a command and an engine step end (10_state.md R113): the run goes on at the next index, or stops where it
is. -/

namespace Sys2Proof.Machine

/-- The run goes on with the next command. -/
def Advances (s t : State) : Prop := t.busy = s.busy ∧ t.pc = s.pc + 1

/-- The run is over, with PC where it was and an end status set. -/
def Ends (s t : State) : Prop := t.busy = false ∧ t.pc = s.pc ∧ (t.done = true ∨ t.err = true)

theorem ends_trapped (e : Exn) (s : State) : Ends s (s.trapped e) := ⟨rfl, rfl, .inr rfl⟩

theorem exec_advances_or_ends {i : Instr} {s t : State} (h : exec i s = .next t) : Advances s t ∨ Ends s t := by
  cases exec_effect h with
  | scalar | bignum | bignums | flag | store => exact .inl ⟨rfl, rfl⟩
  | halt => exact .inr ⟨rfl, rfl, .inl rfl⟩
  | raised e => exact .inr (ends_trapped e s)

/-- An engine step advances only after a fetch inside IMEM (R112, R801). -/
theorem engineStep_advances_or_ends {s t : State} (h : engineStep s = .next t) :
    (s.pc.toNat < s.cfg.imemWords ∧ Advances s t) ∨ Ends s t := by
  rcases engineStep_cases s with ⟨_, hs⟩ | ⟨_, _, _, hs⟩ | ⟨hpc, i, _, hs⟩
  · rw [raise_next.1 (hs.symm.trans h)]; exact .inr (ends_trapped _ s)
  · rw [raise_next.1 (hs.symm.trans h)]; exact .inr (ends_trapped _ s)
  · exact (exec_advances_or_ends (hs.symm.trans h)).imp_left (⟨hpc, ·⟩)

/-- PC + 1 does not wrap while PC is inside the largest IMEM (R9, R114). -/
theorem pc_succ_toNat {c : Config} (hc : c.valid) {pc : BitVec 16} (h : pc.toNat < c.imemWords) :
    (pc + 1).toNat = pc.toNat + 1 := by
  obtain ⟨_, _, _, himem⟩ := hc
  bv_omega

end Sys2Proof.Machine
end

section
/-! SUPPORT. The proofs of the obligations of 10_state.md. -/

namespace Sys2Proof.Machine

/-- Settles O10: an engine step ends the run where it is or completes a command fetched inside IMEM, and there PC + 1 does
not wrap. -/
theorem pcAdvancesByOneOrStays : Obligations.PcAdvancesByOneOrStays := by
  unfold Obligations.PcAdvancesByOneOrStays
  intro s s₀ t hnext hcfg hbusy hstep
  have hengine : engineStep s₀ = .next t := by
    rw [← engineTurn_busy hbusy, ← step_engineNext hnext, hstep]
  rcases engineStep_advances_or_ends hengine with ⟨hpc, hb, hp⟩ | hends
  · have hsucc : t.pc.toNat = s₀.pc.toNat + 1 := hp ▸ pc_succ_toNat hcfg hpc
    exact .inl ⟨hb.trans hbusy, hsucc, by omega⟩
  · exact .inr hends

/-- Settles O13: a command that writes F overwrites it, and every other command but BSEL and SSEL commutes with setting
it. -/
theorem flagWritersAndReaders : Obligations.FlagWritersAndReaders := by
  unfold Obligations.FlagWritersAndReaders
  refine ⟨fun _ _ _ => exec_keeps_flag, fun i s t b hr h => ?_⟩
  cases hw : writesFlag i with
  | true => exact ⟨t, (exec_setFlag_of_writesFlag hw s b).trans h, rfl, fun _ => rfl⟩
  | false => exact ⟨t.setFlag b, by rw [exec_setFlag hr hw, h, withFlag_next], rfl, nofun⟩

/-- Settles O18: the reset event and State.resetWith differ in the model's own fields alone, and no row of R160's table
reads them. -/
theorem resetLeavesTheSpecValues : Obligations.ResetLeavesTheSpecValues := by
  unfold Obligations.ResetLeavesTheSpecValues
  intro AfterReset
  have table (c : Config) (epoch draws : Nat) (es : List Event) (replies : List Word) : AfterReset c
      { State.resetWith c with epoch := epoch, draws := draws, schedule := es, replies := replies } := by
    refine ⟨rfl, State.S_resetWith c, State.B_resetWith c, rfl, rfl, rfl, rfl, rfl, rfl, rfl, rfl, hostReadValue_id _,
      hostReadValue_version _, ?_, hostReadValue_cfgBn _, hostReadValue_cfgDmem _, hostReadValue_cfgImem _⟩
    simp [ctrlWord, statusWord, State.resetWith]
  exact ⟨fun s es h => ⟨_, step_event h, table ..⟩, fun c => table c 0 0 [] []⟩

/-- Settles O19: the write is an accepted START, and START's fields say the rest. -/
theorem startClearsTheRegisters : Obligations.StartClearsTheRegisters := by
  unfold Obligations.StartClearsTheRegisters
  intro s v hb hv
  have hstart : hostWrite 0x008#32 v s = { s with irqEn := v.getLsbD 1 }.startRun := ctrlWrite_start hb hv
  simp only [BitVec.ofNat_eq_ofNat, hstart]
  exact ⟨State.S_startRun _, State.B_startRun _, rfl, rfl, rfl, rfl, rfl, rfl, fun _ => rfl, fun _ => rfl, rfl⟩

/-- Settles O20: a CTRL write is an accepted START or sets IRQ_EN alone. -/
theorem controlRegister : Obligations.ControlRegister := by
  unfold Obligations.ControlRegister
  intro s v
  refine ⟨hostReadValue_ctrl s, fun c => hostReadValue_ctrl (State.resetWith c), ctrlWrite_noStart, fun hb hv => ?_⟩
  have hstart : hostWrite 0x008 v s = { s with irqEn := v.getLsbD 1 }.startRun := ctrlWrite_start hb hv
  simp only [hstart, State.startRun_busy, State.startRun_irqEn, and_self]

/-- Settles O22: a read-only or reserved offset is none of the three that take a write, and the rest of the map is
reserved. -/
theorem readOnlyAndReservedRegisters : Obligations.ReadOnlyAndReservedRegisters := by
  unfold Obligations.ReadOnlyAndReservedRegisters
  intro s
  refine ⟨hostReadValue_id s, hostReadValue_version s, ?_, hostReadValue_cfgBn s, hostReadValue_cfgDmem s,
    hostReadValue_cfgImem s, fun v addr h => ?_, fun addr v h => ?_, fun a b v h => ?_⟩
  · exact BitVec.toNat_setWidth_of_le (by decide)
  · have named : ∀ addr ∈ [0x000#32, 0x004#32, 0x010#32, 0x018#32, 0x01C#32, 0x020#32], addr.toNat < 0x10000 ∧
        addr.toNat / 4 * 4 ∉ [0x008, 0x00C, 0x014] := by simp
    obtain ⟨hlow, hro⟩ := named addr h
    exact hostWrite_readOnly hlow hro v s
  · rcases h with ⟨hlow, hhigh⟩ | h
    · have htarget := hostTarget_register hhigh
      exact ⟨(hostReadValue_register htarget).trans (registerRead_reserved s (by omega)),
        hostWrite_readOnly hhigh (by simp; omega) v s⟩
    · exact ⟨hostReadValue_reserved (hostTarget_reserved h), hostWrite_reserved (hostTarget_reserved h) v s⟩
  · exact ⟨hostReadValue_congr s (hostTarget_congr h), hostWrite_congr v s (hostTarget_congr h)⟩

/-- Settles O23, by the two values of BUSY, which both the read and the write of PC test. -/
theorem pcRegister : Obligations.PcRegister := by
  unfold Obligations.PcRegister
  intro s v
  refine ⟨fun hb => ⟨?_, ?_⟩, fun hb => ⟨pcWrite_busy hb v, Config.busyPcRead s.draws, ?_⟩⟩
  · simp [pcWrite_idle hb]
  · simp [hb]
  · simp [hb]

end Sys2Proof.Machine
end

section
/-! SUPPORT. What the decoder answers on the words it rejects (30_encoding.md R307 to R311): the opcode alone decides
whether a row of R306 is reached, and a row checks the reserved bits of its format before anything else. -/

namespace Sys2Proof

/-! ## The checks of a row -/

theorem acceptClean_reserved {f : Format} {w : Word} (h : reservedClean f w = false) (i : Instr) :
    acceptClean f w i = .error .reservedField := by
  simp [acceptClean, h]

theorem acceptWf_reserved {f : Format} {w : Word} (h : reservedClean f w = false) (i : Instr) :
    acceptWf f w i = .error .reservedField := by
  simp [acceptWf, h]

theorem acceptFtst_reserved {w : Word} (h : reservedClean .R2 w = false) : acceptFtst w = .error .reservedField := by
  simp [acceptFtst, h]

theorem acceptWf_sameDestination {f : Format} {w : Word} {i : Instr} (hc : reservedClean f w = true)
    (hi : i.wf = false) : acceptWf f w i = .error .sameDestination := by
  simp [acceptWf, hc, hi]

/-- Codes 6 to 15 name no condition (R305). -/
theorem ofCode?_reserved {c : BitVec 4} (h : 6 ≤ c.toNat) : Cond.ofCode? c = none := by
  revert c; decide

theorem acceptFtst_conditionCode {w : Word} (hc : reservedClean .R2 w = true) (h : 6 ≤ (f2Field w).toNat) :
    acceptFtst w = .error .conditionCode := by
  simp [acceptFtst, hc, ofCode?_reserved h]

/-- The answer of a row of format f on the word w: one of the three ways the decoder has to check a word. -/
inductive RowAnswer (w : Word) : Format → Except Illegal Instr → Prop where
  | clean (f : Format) (i : Instr) : RowAnswer w f (acceptClean f w i)
  | wf (f : Format) (i : Instr) : RowAnswer w f (acceptWf f w i)
  | ftst : RowAnswer w .R2 (acceptFtst w)

/-- Whatever the row, a reserved bit that is set is found first (R311). -/
theorem RowAnswer.reserved {w : Word} {f : Format} {r : Except Illegal Instr} (h : RowAnswer w f r)
    (hc : reservedClean f w = false) : r = .error .reservedField := by
  cases h with
  | clean => exact acceptClean_reserved hc _
  | wf => exact acceptWf_reserved hc _
  | ftst => exact acceptFtst_reserved hc

/-- No row answers that the opcode is unassigned. -/
theorem RowAnswer.ne_unassigned {w : Word} {f : Format} {r : Except Illegal Instr} (h : RowAnswer w f r) :
    r ≠ .error .unassignedOpcode := by
  cases h with
  | clean => unfold acceptClean; split <;> nofun
  | wf => unfold acceptWf; (repeat' split) <;> nofun
  | ftst => unfold acceptFtst; (repeat' split) <;> nofun

/-! ## From the opcode to the row -/

/-- The list of R307. -/
def UnassignedOpcode (op : Nat) : Prop :=
  op = 0x00 ∨ (0x02 ≤ op ∧ op ≤ 0x0F) ∨ (0x1A ≤ op ∧ op ≤ 0x1F) ∨ (0x23 ≤ op ∧ op ≤ 0x2F) ∨ op = 0x36 ∨ op = 0x37 ∨
  (0x3D ≤ op ∧ op ≤ 0x3F) ∨ (0x43 ≤ op ∧ op ≤ 0x4F) ∨ (0x58 ≤ op ∧ op ≤ 0x5F) ∨ (0x66 ≤ op ∧ op ≤ 0x6F) ∨
  (0x72 ≤ op ∧ op ≤ 0x77) ∨ (0x7B ≤ op ∧ op ≤ 0xFF)

/-- The opcode of a command leads to a row of that command's format. -/
theorem decode_row {i : Instr} {w : Word} (h : opField w = i.opcode) : RowAnswer w i.format (decode w) := by
  unfold decode
  rw [h]
  cases i with
  | ftst => exact .ftst
  | bdivmod | bxgcd => exact .wf ..
  | _ => exact .clean ..

theorem decode_ftst {w : Word} (h : opField w = 0x20#8) : decode w = acceptFtst w := by
  simp [decode, h]

theorem decode_bdivmod {w : Word} (h : opField w = 0x63#8) : decode w = acceptWf .R4 w
    (.bdivmod (toBReg (f1Field w)) (toBReg (f2Field w)) (toBReg (f3Field w)) (toBReg (f4Field w))) := by
  simp [decode, h]

theorem decode_bxgcd {w : Word} (h : opField w = 0x79#8) : decode w = acceptWf .R4 w
    (.bxgcd (toBReg (f1Field w)) (toBReg (f2Field w)) (toBReg (f3Field w)) (toBReg (f4Field w))) := by
  simp [decode, h]

/-- The decoder's last row catches the opcodes of R307's list, and every opcode outside the list has a row. -/
theorem decode_unassigned_or_row (w : Word) :
    (UnassignedOpcode (opField w).toNat ∧ decode w = .error .unassignedOpcode) ∨
    (¬ UnassignedOpcode (opField w).toNat ∧ ∃ f, RowAnswer w f (decode w)) := by
  have hop : (opField w).toNat < 256 := (opField w).isLt
  unfold decode UnassignedOpcode
  dsimp only
  -- Row 12 is FTST, 40 and 46 are the commands with two destinations, 48 is the row for every other opcode.
  split
  case h_48 =>
    refine .inl ⟨?_, rfl⟩
    simp only [imp_false] at *
    omega
  case h_12 => exact .inr ⟨by omega, _, .ftst⟩
  case h_40 | h_46 => exact .inr ⟨by omega, _, .wf ..⟩
  all_goals exact .inr ⟨by omega, _, .clean ..⟩

theorem decode_eq_unassigned_iff (w : Word) :
    decode w = .error .unassignedOpcode ↔ UnassignedOpcode (opField w).toNat := by
  rcases decode_unassigned_or_row w with ⟨hu, hd⟩ | ⟨hu, f, hrow⟩
  · exact iff_of_true hd hu
  · exact iff_of_false hrow.ne_unassigned hu

theorem decode_zero : decode 0#32 = .error .unassignedOpcode := (decode_eq_unassigned_iff 0#32).2 (.inl rfl)

end Sys2Proof

namespace Sys2Proof.Machine

/-- An engine step that fetches an illegal word takes IllegalInstruction (R310, R802). -/
theorem engineStep_illegal {s : State} {e : Illegal} (hpc : s.pc.toNat < s.cfg.imemWords)
    (hd : decode (s.imemWord s.pc.toNat) = .error e) : engineStep s = raise .illegalInstruction s := by
  simp [engineStep, fetch_eq_some.2 ⟨hpc, rfl⟩, hd]

end Sys2Proof.Machine
end

section
/-! SUPPORT. The proofs of the obligations of 30_encoding.md on which words are legal and what the example words name. -/

namespace Sys2Proof.Machine

/-- Settles O1, by running the decoder on the nine words. -/
theorem exampleWordsDecode : Obligations.ExampleWordsDecode := by
  unfold Obligations.ExampleWordsDecode
  decide

/-- Settles O4: the opcodes with no row are those of R307's list, and the zero word's opcode is the first of them. -/
theorem unassignedOpcodesAreIllegal : Obligations.UnassignedOpcodesAreIllegal := by
  unfold Obligations.UnassignedOpcodesAreIllegal
  refine ⟨decode_eq_unassigned_iff, fun s s₀ hnext hbusy hpc hword => ?_⟩
  have hstep : step s = raise .illegalInstruction s₀ := calc
    step s = engineTurn s₀ := step_engineNext hnext
    _ = engineStep s₀ := engineTurn_busy hbusy
    _ = raise .illegalInstruction s₀ := engineStep_illegal hpc (hword ▸ decode_zero)
  rw [hstep]
  exact raise_spec .illegalInstruction s₀

/-- Settles O5: every row checks its format's reserved bits first; past that check, FTST's row reads the condition code and
the rows with two destinations compare them. -/
theorem reservedFieldsAndValueConstraints : Obligations.ReservedFieldsAndValueConstraints := by
  unfold Obligations.ReservedFieldsAndValueConstraints
  refine ⟨fun i w k hop hk hmask hbit => ?_, fun w hop hclean hcode => ?_, fun w hop hclean heq => ?_⟩
  · have hdirty : reservedClean i.format w = false :=
      Bool.eq_false_iff.2 fun hc => by simp [reservedClean_bit hc k hk hmask] at hbit
    exact (decode_row hop).reserved hdirty
  · exact (decode_ftst hop).trans (acceptFtst_conditionCode hclean hcode)
  · rcases hop with hop | hop
    · exact (decode_bdivmod hop).trans (acceptWf_sameDestination hclean (by simp [Instr.wf, heq]))
    · exact (decode_bxgcd hop).trans (acceptWf_sameDestination hclean (by simp [Instr.wf, heq]))

end Sys2Proof.Machine
end

section
/-! SUPPORT. The words of the commands (30_encoding.md R301 to R311): a well-formed command's word decodes to it, and so
the claim EncodedAs of a command is the claim about its operand fields alone. -/

namespace Sys2Proof

/-- The opcode field leads back to the command's own row, where the reserved bits are clean and each field reads as the
operand it was made from. Only FTST's row and the two rows with two destinations check anything else. -/
theorem decode_encode {i : Instr} (h : i.wf = true) : decode (encode i) = .ok i := by
  cases i with
  | ftst => simp [encode, decode, Instr.opcode, acceptFtst]
  | bdivmod | bxgcd => simp [encode, decode, Instr.opcode, acceptWf, h]
  | _ => simp [encode, decode, Instr.opcode, acceptClean]

end Sys2Proof

namespace Sys2Proof.Machine

theorem encodedAs_of_fields {i : Instr} {fields : List (BitVec 4)} (hwf : i.wf = true)
    (hf : [f1Field (encode i), f2Field (encode i), f3Field (encode i), f4Field (encode i)].take fields.length = fields) :
    EncodedAs i i.opcode i.format fields := by
  obtain ⟨hop, hclean⟩ := Laws.EncodedForm.everyInstr i
  exact ⟨hop, hclean, hf, decode_encode hwf⟩

end Sys2Proof.Machine
end

section
/-! SUPPORT. What the comparators and the flag producers compute (40_compare_select.md): the byte-by-byte order of R400,
the OR of all byte differences of R402, and the parities of R406 and R407. -/

namespace Sys2Proof.Machine

/-! ## Byte order (R400) -/

/-- Where x and y first differ, x has the smaller byte. -/
def BelowAtFirstDifference (x y : ByteString) : Prop :=
  ∃ (k : Nat) (u v : Byte), x.take k = y.take k ∧ x[k]? = some u ∧ y[k]? = some v ∧ u.toNat < v.toNat

theorem not_belowAtFirstDifference_nil (y : ByteString) : ¬ BelowAtFirstDifference [] y := by
  rintro ⟨k, u, v, -, hu, -⟩
  simp at hu

/-- Byte 0 decides, or it is shared and the rest decides. -/
theorem belowAtFirstDifference_cons {b c : Byte} {x y : ByteString} :
    BelowAtFirstDifference (b :: x) (c :: y) ↔ b.toNat < c.toNat ∨ (b = c ∧ BelowAtFirstDifference x y) := by
  constructor
  · rintro ⟨k, u, v, htake, hu, hv, huv⟩
    cases k with
    | zero => cases hu; cases hv; exact .inl huv
    | succ k =>
      obtain ⟨hbc, htake⟩ := List.cons.inj htake
      exact .inr ⟨hbc, k, u, v, htake, hu, hv, huv⟩
  · rintro (h | ⟨rfl, k, u, v, htake, hu, hv, huv⟩)
    · exact ⟨0, b, c, rfl, rfl, rfl, h⟩
    · exact ⟨k + 1, u, v, congrArg (b :: ·) htake, hu, hv, huv⟩

/-- At equal lengths byte 0 outweighs all the bytes after it. -/
theorem val_cons_lt_val_cons {b c : Byte} {x y : ByteString} (hl : x.length = y.length) :
    val (b :: x) < val (c :: y) ↔ b.toNat < c.toNat ∨ (b = c ∧ val x < val y) := by
  have hx := val_lt x
  have hy := val_lt y
  rw [val_cons, val_cons, hl]
  rw [hl] at hx
  rcases lt_trichotomy b.toNat c.toNat with h | h | h
  · exact iff_of_true (by nlinarith) (.inl h)
  · obtain rfl := BitVec.eq_of_toNat_eq h
    simp
  · refine iff_of_false (by nlinarith) ?_
    rintro (h' | ⟨rfl, -⟩) <;> omega

/-- For equal lengths numeric order is byte order (R400). -/
theorem val_lt_iff_belowAtFirstDifference {x y : ByteString} (hl : x.length = y.length) :
    val x < val y ↔ BelowAtFirstDifference x y := by
  induction x generalizing y with
  | nil =>
    obtain rfl := List.length_eq_zero_iff.1 hl.symm
    exact iff_of_false (lt_irrefl _) (not_belowAtFirstDifference_nil [])
  | cons b x ih =>
    cases y with
    | nil => simp at hl
    | cons c y =>
      have hl' : x.length = y.length := Nat.succ.inj hl
      rw [val_cons_lt_val_cons hl', belowAtFirstDifference_cons, ih hl']

/-! ## Identity (R402) -/

/-- At equal lengths no byte differs exactly when the strings are the same. -/
theorem zipWith_xor_eq_zero_iff {x y : ByteString} (hl : x.length = y.length) :
    (∀ d ∈ List.zipWith (· ^^^ ·) x y, d = 0#8) ↔ x = y := by
  induction x generalizing y with
  | nil => simp [List.length_eq_zero_iff.1 hl.symm]
  | cons b x ih =>
    cases y with
    | nil => simp at hl
    | cons c y => simp [ih (Nat.succ.inj hl)]

/-- BEQ's result: unequal lengths give 0, and at equal lengths the accumulated difference is zero for equal strings only. -/
theorem execBeq_eq (d : SReg) (a b : BReg) (s : State) :
    execBeq d a b s = writeS d (if s.B a = s.B b then 1#32 else 0#32) s := by
  by_cases hl : (s.B a).length = (s.B b).length
  · simp [execBeq, hl, foldl_or_eq_zero, zipWith_xor_eq_zero_iff hl]
  · have hne : s.B a ≠ s.B b := fun h => hl (congrArg List.length h)
    simp [execBeq, hl, hne]

/-! ## Flag production (R405 to R407) -/

theorem scalarParity_eq (v : Word) : scalarParity v = decide (v.toNat % 2 = 1) := Nat.testBit_zero v.toNat

theorem bignumParity_eq (x : ByteString) : bignumParity x = decide (val x % 2 = 1) := rfl

/-- A command that writes F, where the bit written is only described. -/
theorem answers_writeF_iff {i : Instr} {s : State} {b : Bool} {p : Prop} (h : exec i s = writeF b s)
    (hb : b = true ↔ p) : Answers i s (fun t => WritesFlag t.flag s t ∧ (t.flag = true ↔ p)) := by
  obtain ⟨t, ht, hw⟩ := answers_writeF h rfl
  exact ⟨t, ht, hw.value.symm ▸ hw, hw.value.symm ▸ hb⟩

end Sys2Proof.Machine
end

section
/-! SUPPORT. The proofs of the obligations of 40_compare_select.md. -/

namespace Sys2Proof.Machine

/-- Settles O32: the pattern SCMP writes is that of the three-way comparison. -/
theorem scmpComparesUnsigned : Obligations.ScmpComparesUnsigned := by
  unfold Obligations.ScmpComparesUnsigned
  intro d a b s
  exact ⟨encodedAs_of_fields rfl (by simp [encode]), answers_writeS rfl (compareResult_eq _ _)⟩

/-- Settles O33: the scalar multiplexer picks the operand F names. -/
theorem sselSelectsByFlag : Obligations.SselSelectsByFlag := by
  unfold Obligations.SselSelectsByFlag
  intro d a b s
  exact ⟨encodedAs_of_fields rfl (by simp [encode]), answers_writeS rfl (selectWord_eq _ _ _)⟩

/-- Settles O35: each of the three bits written to F is the one its rule describes. -/
theorem flagCommands : Obligations.FlagCommands := by
  unfold Obligations.FlagCommands
  intro a c x s
  refine ⟨encodedAs_of_fields rfl ?_, answers_writeF_iff rfl ?_, encodedAs_of_fields rfl (by simp [encode]),
    answers_writeF rfl (scalarParity_eq _), encodedAs_of_fields rfl (by simp [encode]),
    answers_writeF rfl (bignumParity_eq _)⟩
  · cases c <;> simp [encode, Cond.code]
  · cases c <;> exact decide_eq_true_iff

/-- Settles O36: past the length check BCMP writes the pattern of the three-way comparison, and at equal lengths that
order is the order of the bytes. -/
theorem bcmpComparesEqualLengths : Obligations.BcmpComparesEqualLengths := by
  unfold Obligations.BcmpComparesEqualLengths
  refine ⟨fun d a b s => ⟨encodedAs_of_fields rfl (by simp [encode]), fun hl => ?_, fun hl => ?_⟩,
    fun x y hl => val_lt_iff_belowAtFirstDifference hl⟩
  · exact answers_writeS (requireSameLength_pos hl s _) (compareResult_eq _ _)
  · exact answers_raise (requireSameLength_neg hl s _)

/-- Settles O37: the accumulated byte differences and the length test together decide identity. -/
theorem beqTestsIdentity : Obligations.BeqTestsIdentity := by
  unfold Obligations.BeqTestsIdentity
  intro d a b s
  exact ⟨encodedAs_of_fields rfl (by simp [encode]), answers_writeS (execBeq_eq d a b s) rfl⟩

/-- Settles O38: past the length check the byte multiplexer picks one operand whole. -/
theorem bselSelectsByFlag : Obligations.BselSelectsByFlag := by
  unfold Obligations.BselSelectsByFlag
  intro d a b s
  refine ⟨encodedAs_of_fields rfl (by simp [encode]), fun hl => ?_, fun hl => ?_⟩
  · exact answers_writeB (requireSameLength_pos hl s _) (selectBytes_eq _ _ _ hl)
  · exact answers_raise (requireSameLength_neg hl s _)

end Sys2Proof.Machine
end

section
/-! SUPPORT. What resizing and trimming make of a byte string (41_resize_trim.md): the bytes BRSZ keeps, and the zero bytes
BTRML and BTRMR take off. -/

namespace Sys2Proof.Machine

/-! ## Resize (R450) -/

theorem resizeBytes_getElem? (x : ByteString) {n i : Nat} (hi : i < n) :
    (resizeBytes x n)[i]? = some (if i < x.length then x.getD i 0#8 else 0#8) := by
  by_cases hx : i < x.length
  · have htake : i < (x.take n).length := by rw [List.length_take]; omega
    simp [resizeBytes, List.getElem?_append_left htake, hi, hx]
  · have htake : (x.take n).length = x.length := by rw [List.length_take]; omega
    have hzeros : i - x.length < n - x.length := by omega
    simp [resizeBytes, List.getElem?_append_right (htake ▸ Nat.le_of_not_lt hx), htake, zeros, hzeros, hx]

/-! ## Trim at the front (R451) -/

theorem eq_zeros_append_trimLeft (x : ByteString) : ∃ k, x = zeros k ++ trimLeft x := by
  have hzeros : x.takeWhile (· == 0#8) = zeros (x.takeWhile (· == 0#8)).length :=
    List.eq_replicate_length.2 fun b hb => by simpa using List.mem_takeWhile_imp hb
  exact ⟨_, hzeros ▸ List.takeWhile_append_dropWhile.symm⟩

theorem trimLeft_head?_ne_zero (x : ByteString) : (trimLeft x).head? ≠ some 0#8 := by
  intro h
  have hkept := List.head?_dropWhile_not (· == 0#8) x
  rw [show (x.dropWhile (· == 0#8)).head? = some 0#8 from h] at hkept
  simp at hkept

/-- Leading zero bytes weigh nothing. -/
@[simp] theorem val_trimLeft (x : ByteString) : val (trimLeft x) = val x := by
  obtain ⟨k, hk⟩ := eq_zeros_append_trimLeft x
  conv_rhs => rw [hk, val_append, val_zeros, Nat.zero_mul, Nat.zero_add]

@[simp] theorem trimLeft_trimLeft (x : ByteString) : trimLeft (trimLeft x) = trimLeft x := List.dropWhile_idempotent _ _

/-! ## Trim at the end (R452): the trim at the front, seen from the other side -/

theorem eq_trimRight_append_zeros (x : ByteString) : ∃ k, x = trimRight x ++ zeros k := by
  obtain ⟨k, hk⟩ := eq_zeros_append_trimLeft x.reverse
  exact ⟨k, by simpa [trimRight, zeros] using congrArg List.reverse hk⟩

theorem trimRight_getLast?_ne_zero (x : ByteString) : (trimRight x).getLast? ≠ some 0#8 := by
  rw [trimRight, List.getLast?_reverse]
  exact trimLeft_head?_ne_zero x.reverse

@[simp] theorem trimRight_trimRight (x : ByteString) : trimRight (trimRight x) = trimRight x := by
  simp [trimRight]

end Sys2Proof.Machine
end

section
/-! SUPPORT. The proofs of the obligations of 41_resize_trim.md. -/

namespace Sys2Proof.Machine

/-- Settles O44: past the capacity check BRSZ writes the resized string, byte by byte the source's or zero. -/
theorem brszKeepsTheFirstBytes : Obligations.BrszKeepsTheFirstBytes := by
  unfold Obligations.BrszKeepsTheFirstBytes
  intro d x n s
  refine ⟨encodedAs_of_fields rfl (by simp [encode]), fun hcap => ?_, fun hcap => ?_⟩
  · obtain ⟨t, ht, hw⟩ : Answers (.brsz d x n) s (WritesBignum d (resizeBytes (s.B x) (s.S n).toNat) s) :=
      answers_writeB (requireCapacity_pos hcap _) rfl
    refine ⟨t, ht, ?_⟩
    simp only [hw.value]
    exact ⟨hw, resizeBytes_length _ _, fun _ => resizeBytes_getElem? _⟩
  · exact answers_raise (requireCapacity_neg hcap _)

/-- Settles O45: what each trim writes is the source without its zeros at one end, and a second trim finds none left. -/
theorem trimsRemoveZeroBytes : Obligations.TrimsRemoveZeroBytes := by
  unfold Obligations.TrimsRemoveZeroBytes
  intro d x d' s
  refine ⟨encodedAs_of_fields rfl (by simp [encode]), encodedAs_of_fields rfl (by simp [encode]), ?_, ?_⟩
  · obtain ⟨t, ht, hw⟩ : Answers (.btrml d x) s (WritesBignum d (trimLeft (s.B x)) s) := answers_writeB rfl rfl
    have htwice : trimLeft (t.B d) = trimLeft (s.B x) := by rw [hw.value, trimLeft_trimLeft]
    refine ⟨t, ht, ?_⟩
    simp only [hw.value]
    exact ⟨hw, eq_zeros_append_trimLeft _, trimLeft_head?_ne_zero _, val_trimLeft _, answers_writeB rfl htwice⟩
  · obtain ⟨t, ht, hw⟩ : Answers (.btrmr d x) s (WritesBignum d (trimRight (s.B x)) s) := answers_writeB rfl rfl
    have htwice : trimRight (t.B d) = trimRight (s.B x) := by rw [hw.value, trimRight_trimRight]
    refine ⟨t, ht, ?_⟩
    simp only [hw.value]
    exact ⟨hw, eq_trimRight_append_zeros _, trimRight_getLast?_ne_zero _, answers_writeB rfl htwice⟩

end Sys2Proof.Machine
end

section
/-! SUPPORT. The results of the scalar commands (42_scalar.md) as the numbers of R501, R503, R504, R505 and R509. -/

namespace Sys2Proof.Machine

/-- LIH's halves do not overlap, so joining them is adding them (R501). -/
theorem highHalf_or_lowHalf (imm : BitVec 16) (v : Word) :
    (imm.setWidth 32 <<< 16) ||| (v &&& 0x0000FFFF#32) = BitVec.ofNat 32 (imm.toNat * 65536 + v.toNat % 65536) := by
  have hhigh : imm.toNat % 4294967296 = imm.toNat := by omega
  have hlow : v.toNat % 65536 < 2 ^ 16 := Nat.mod_lt _ (by decide)
  have hjoin : imm.toNat * 65536 + v.toNat % 65536 = imm.toNat <<< 16 ||| (v.toNat &&& 65535) := calc
    imm.toNat * 65536 + v.toNat % 65536 = imm.toNat <<< 16 ||| v.toNat % 65536 := by
      rw [← Nat.shiftLeft_add_eq_or_of_lt hlow, Nat.shiftLeft_eq]
    _ = imm.toNat <<< 16 ||| (v.toNat &&& 65535) := by rw [← Nat.and_two_pow_sub_one_eq_mod v.toNat 16]
  apply BitVec.eq_of_toNat_eq
  simp [hjoin, hhigh]

theorem sub_eq_ofInt (x y : Word) : x - y = BitVec.ofInt 32 ((x.toNat : Int) - y.toNat) := by
  rw [Int.sub_eq_add_neg, BitVec.ofInt_add, BitVec.ofInt_neg]
  simp [BitVec.sub_eq_add_neg]

theorem shiftLeft_eq_ofNat (x : Word) (n : Nat) : x <<< n = BitVec.ofNat 32 (x.toNat * 2 ^ n) := by
  rw [← Nat.shiftLeft_eq]; rfl

theorem shiftRight_eq_ofNat (x : Word) (n : Nat) : x >>> n = BitVec.ofNat 32 (x.toNat / 2 ^ n) := by
  rw [← Nat.shiftRight_eq_div_pow, ← BitVec.toNat_ushiftRight, BitVec.ofNat_toNat, BitVec.setWidth_eq]

/-- Quotient and remainder reassemble the dividend (R509). -/
theorem udiv_mul_add_umod (x y : Word) : x / y * y + x % y = x := by
  have hsum : x.toNat / y.toNat * y.toNat + x.toNat % y.toNat = x.toNat := Nat.div_add_mod' _ _
  apply BitVec.eq_of_toNat_eq
  simpa [hsum] using x.isLt

theorem requireNonzero_zero {v : Nat} (h : v = 0) (s : State) (k : Result) :
    requireNonzero v s k = raise .divisionByZero s := h ▸ requireNonzero_neg s k

end Sys2Proof.Machine
end

section
/-! SUPPORT. The proofs of the obligations of 42_scalar.md. -/

namespace Sys2Proof.Machine

/-- Settles O29: LIL's immediate keeps its value at 32 bits; LIH's counts 2^16 times, above the kept half. -/
theorem lilAndLihLoadHalves : Obligations.LilAndLihLoadHalves := by
  unfold Obligations.LilAndLihLoadHalves
  intro d imm s
  exact ⟨encodedAs_of_fields rfl (by simp [encode]), immField_immWord _ _ _,
    answers_writeS rfl (BitVec.ofNat_toNat 32 imm).symm,
    encodedAs_of_fields rfl (by simp [encode]), immField_immWord _ _ _,
    answers_writeS rfl (highHalf_or_lowHalf imm (s.S d))⟩

/-- Settles O30: bit-vector addition and subtraction are those of the numbers modulo 2^32. -/
theorem saddAndSsubWrap : Obligations.SaddAndSsubWrap := by
  unfold Obligations.SaddAndSsubWrap
  intro d a b s
  exact ⟨encodedAs_of_fields rfl (by simp [encode]), answers_writeS rfl (BitVec.add_def _ _),
    encodedAs_of_fields rfl (by simp [encode]), answers_writeS rfl (sub_eq_ofInt _ _)⟩

/-- Settles O31: below 32 a shift multiplies or divides by the power of two, and from 32 on both sides are 0. -/
theorem scalarShifts : Obligations.ScalarShifts := by
  unfold Obligations.ScalarShifts
  intro d a b s
  refine ⟨encodedAs_of_fields rfl (by simp [encode]), answers_writeS rfl ?_,
    encodedAs_of_fields rfl (by simp [encode]), answers_writeS rfl ?_⟩
  · rw [shiftLeft_eq_ofNat]
  · rw [shiftRight_eq_ofNat]

/-- Settles O34: past the divisor check SDIV and SMOD write the bit-vector quotient and remainder. -/
theorem scalarDivision : Obligations.ScalarDivision := by
  unfold Obligations.ScalarDivision
  intro d a b s
  refine ⟨encodedAs_of_fields rfl (by simp [encode]), encodedAs_of_fields rfl (by simp [encode]),
    fun hb => ?_, fun hb => ?_⟩
  · have hrem : (s.S a % s.S b).toNat < (s.S b).toNat := Nat.mod_lt _ (Nat.pos_of_ne_zero hb)
    exact ⟨s.S a / s.S b, s.S a % s.S b, BitVec.toNat_udiv, BitVec.toNat_umod,
      answers_writeS (requireNonzero_pos hb s _) BitVec.udiv_def.symm,
      answers_writeS (requireNonzero_pos hb s _) BitVec.umod_def.symm, udiv_mul_add_umod _ _, hrem⟩
  · exact ⟨answers_raise (requireNonzero_zero hb s _), answers_raise (requireNonzero_zero hb s _)⟩

end Sys2Proof.Machine
end

section
/-! SUPPORT. What loads, stores and HALT compute (43_move_control.md): the bytes a load reads, the word four of them make,
what a command that stores answers, and the IRQ output after HALT. -/

namespace Sys2Proof.Machine

theorem memRead_getElem? (s : State) (a : Nat) {n k : Nat} (h : k < n) :
    (s.memRead a n)[k]? = some (s.dmemByte (a + k)) := by
  rw [List.getElem?_eq_getElem (by simpa using h), memRead_getElem]

/-- The lowest address holds bits 31:24 (R204). -/
theorem bytesWord_memRead_four (s : State) (a : Nat) :
    bytesWord (s.memRead a 4) = BitVec.ofNat 32 ((s.dmemByte a).toNat * 2 ^ 24 + (s.dmemByte (a + 1)).toNat * 2 ^ 16 +
      (s.dmemByte (a + 2)).toNat * 2 ^ 8 + (s.dmemByte (a + 3)).toNat) := by
  have hread : s.memRead a 4 = [s.dmemByte a, s.dmemByte (a + 1), s.dmemByte (a + 2), s.dmemByte (a + 3)] := rfl
  simp [hread, bytesWord, val_cons, Nat.add_assoc]

theorem answers_store {i : Instr} {s : State} {addr : Nat} {x y : ByteString} (h : exec i s = store addr x s)
    (hx : x = y) : Answers i s (StoresBytes addr y s) := by
  subst hx
  obtain ⟨t, ht, hstored⟩ := store_spec addr x s
  exact ⟨t, h.trans ht, hstored⟩

/-- DONE is set after HALT, so the enable bit alone decides the output (R820). -/
theorem irq_of_halts {s t : State} (h : Halts s t) : irq t = s.irqEn := by
  simp [irq, h.done, h.system.irqEn]

end Sys2Proof.Machine
end

section
/-! SUPPORT. The proofs of the obligations of 43_move_control.md. -/

namespace Sys2Proof.Machine

/-- Settles O39: past the capacity check and then the bound check, BLD writes the bytes read. -/
theorem bldLoadsBytes : Obligations.BldLoadsBytes := by
  unfold Obligations.BldLoadsBytes
  intro d a n s addr len
  refine ⟨encodedAs_of_fields rfl (by simp [encode]), fun hcap => ?_, fun hcap hmem => ?_, fun hcap hmem => ?_⟩
  · exact answers_raise (requireCapacity_neg hcap _)
  · exact answers_raise ((requireCapacity_pos hcap _).trans (requireDmem_neg (Nat.not_le.2 hmem) _))
  · have hload : exec (.bld d a n) s = writeB d (s.memRead addr len) s :=
      (requireCapacity_pos hcap _).trans (requireDmem_pos hmem _)
    exact answers_writeB_of (P := fun x => x.length = len ∧ ∀ k, k < len → x[k]? = some (s.dmemByte (addr + k))) hload
      ⟨memRead_length s addr len, fun _ => memRead_getElem? s addr⟩

/-- Settles O40: past the bound check BST stores the register's bytes, and a failed check stores none. -/
theorem bstStoresBytes : Obligations.BstStoresBytes := by
  unfold Obligations.BstStoresBytes
  intro x a s addr
  refine ⟨encodedAs_of_fields rfl (by simp [encode]), fun hmem => ?_, fun hmem => ?_⟩
  · exact answers_store (requireDmem_pos hmem _) rfl
  · exact answers_raise (requireDmem_neg (Nat.not_le.2 hmem) _)

/-- Settles O41: SLD and SST make the same bound check, and past it both put the lowest address in bits 31:24. -/
theorem sldAndSstMoveWords : Obligations.SldAndSstMoveWords := by
  unfold Obligations.SldAndSstMoveWords
  intro d a s addr
  refine ⟨encodedAs_of_fields rfl (by simp [encode]), encodedAs_of_fields rfl (by simp [encode]), fun hmem => ?_,
    fun hmem => ?_⟩
  · exact ⟨answers_writeS (requireDmem_pos hmem _) (bytesWord_memRead_four s addr),
      answers_store (requireDmem_pos hmem _) (wordBytes_eq (s.S d))⟩
  · have hout : ¬ addr + 4 ≤ s.cfg.dmemBytes := Nat.not_le.2 hmem
    exact ⟨answers_raise (requireDmem_neg hout _), answers_raise (requireDmem_neg hout _)⟩

/-- Settles O42: neither command checks anything, and what each writes is read from the source register. -/
theorem bmovAndBlen : Obligations.BmovAndBlen := by
  unfold Obligations.BmovAndBlen
  intro d x e s
  exact ⟨encodedAs_of_fields rfl (by simp [encode]), answers_writeB rfl rfl,
    encodedAs_of_fields rfl (by simp [encode]), answers_writeS rfl rfl⟩

/-- Settles O43: HALT's effect gives the frame, and the IRQ output follows from DONE. -/
theorem haltEndsTheRun : Obligations.HaltEndsTheRun := by
  unfold Obligations.HaltEndsTheRun
  refine ⟨rfl, encodedAs_of_fields rfl rfl, fun s => ?_⟩
  obtain ⟨t, ht, hhalts⟩ := execHalt_spec s
  exact ⟨t, ht, hhalts, irq_of_halts hhalts⟩

end Sys2Proof.Machine
end

section
/-! SUPPORT. What the bitwise, shift and normalize commands make of a byte string (44_bignum_logic_shift.md): one byte from
two, the shift by a count of any size, the signed halving, and the length change at the most significant end. -/

namespace Sys2Proof.Machine

/-! ## Byte by byte (R600 to R602) -/

/-- z has x's length, and byte k of z is f of the bytes k of x and y. -/
def IsBytewise (f : Byte → Byte → Byte) (x y z : ByteString) : Prop :=
  z.length = x.length ∧ ∀ (k : Nat) (u v : Byte), x[k]? = some u → y[k]? = some v → z[k]? = some (f u v)

theorem isBytewise_zipWith (f : Byte → Byte → Byte) {x y : ByteString} (hl : x.length = y.length) :
    IsBytewise f x y (List.zipWith f x y) := by
  constructor
  · simp [hl]
  · intro k u v hu hv
    simp [List.getElem?_zipWith, hu, hv]

/-! ## Shifts by a count (R606, R607): counts of 8L or more leave nothing -/

theorem shiftLeft_eq_enc (x : ByteString) (n : Nat) : shiftLeft x n = enc x.length (val x * 2 ^ n : Nat) := by
  unfold shiftLeft
  split
  case isTrue hn =>
    have hgone : val x * 2 ^ n % 2 ^ (8 * x.length) = 0 := Nat.mod_eq_zero_of_dvd ((pow_dvd_pow 2 hn).mul_left _)
    exact eq_of_val_eq (by simp) (by rw [val_zeros, val_enc_nat, hgone])
  case isFalse => rfl

theorem shiftRight_eq_enc (x : ByteString) (n : Nat) : shiftRight x n = enc x.length (val x / 2 ^ n : Nat) := by
  unfold shiftRight
  split
  case isTrue hn =>
    have hgone : val x / 2 ^ n = 0 :=
      Nat.div_eq_of_lt ((val_lt_two_pow x).trans_le (Nat.pow_le_pow_right (by decide) hn))
    rw [hgone, Nat.cast_zero, enc_zeros]
  case isFalse => rfl

/-! ## The sign bit, in the ways the claims write it (R605, R608) -/

theorem signedVal_eq (x : ByteString) :
    signedVal x = (val x : Int) - if signBit x then 2 ^ (8 * x.length) else 0 := by
  by_cases h : 2 ^ (8 * x.length) ≤ 2 * val x <;> simp [signBit_eq, signedVal, h]

theorem signBit_eq_decide_neg (x : ByteString) : signBit x = decide (signedVal x < 0) := by
  have hlt : (val x : Int) < 2 ^ (8 * x.length) := by exact_mod_cast val_lt_two_pow x
  rw [signedVal_eq]
  cases signBit x <;> simp [hlt]

theorem two_pow_eq_double {x : ByteString} (h : x.length ≠ 0) : 2 ^ (8 * x.length) = 2 * 2 ^ (8 * x.length - 1) := by
  rw [← pow_succ', Nat.sub_add_cancel (by omega)]

theorem signBit_eq_testBit {x : ByteString} (h : x.length ≠ 0) : signBit x = (val x).testBit (8 * x.length - 1) := by
  have htop := two_pow_eq_double h
  have hlt := val_lt_two_pow x
  by_cases hhalf : 2 ^ (8 * x.length - 1) ≤ val x
  · have hbit : (val x).testBit (8 * x.length - 1) = true :=
      Nat.testBit_of_two_pow_le_and_two_pow_add_one_gt hhalf (by rwa [Nat.sub_add_cancel (by omega)])
    rw [signBit_eq, hbit, htop]
    exact decide_eq_true (by omega)
  · have hbit : (val x).testBit (8 * x.length - 1) = false := Nat.testBit_lt_two_pow (Nat.not_le.1 hhalf)
    rw [signBit_eq, hbit, htop]
    exact decide_eq_false (by omega)

/-! ## The signed right shift (R605) -/

/-- The half and the sign bit carried in fit the length together. -/
theorem val_shiftRightSigned {x : ByteString} (h : x.length ≠ 0) :
    val (shiftRightSigned x) = val x / 2 + (if signBit x then 2 ^ (8 * x.length - 1) else 0) := by
  have hlt := val_lt_two_pow x
  have htop := two_pow_eq_double h
  rw [shiftRightSigned, if_neg h]
  apply val_enc_of_lt
  split <;> omega

theorem signBit_shiftRightSigned (x : ByteString) : signBit (shiftRightSigned x) = signBit x := by
  by_cases h : x.length = 0
  · rw [shiftRightSigned, if_pos h]
  · have htop := two_pow_eq_double h
    rw [signBit_eq (shiftRightSigned x), shiftRightSigned_length, val_shiftRightSigned h]
    cases hs : signBit x
    · have hlow : ¬ 2 ^ (8 * x.length) ≤ 2 * val x := by simpa [signBit_eq] using hs
      exact decide_eq_false (by rw [if_neg nofun]; omega)
    · exact decide_eq_true (by rw [if_pos rfl]; omega)

/-- The carried sign bit weighs half of what the sign takes off, so the signed value is halved, rounding down. -/
theorem signedVal_shiftRightSigned (x : ByteString) : signedVal (shiftRightSigned x) = signedVal x / 2 := by
  by_cases h : x.length = 0
  · obtain rfl := List.length_eq_zero_iff.1 h
    rfl
  · have htop : (2 : Int) ^ (8 * x.length) = 2 * 2 ^ (8 * x.length - 1) := by exact_mod_cast two_pow_eq_double h
    rw [signedVal_eq, signedVal_eq x, signBit_shiftRightSigned, shiftRightSigned_length, val_shiftRightSigned h, htop]
    cases signBit x
    · simp
    · simp only [↓reduceIte]
      push_cast
      omega

/-! ## Length change at the most significant end (R608, R609) -/

theorem resizeNumber_of_le {fill : Byte} {x : ByteString} {n : Nat} (h : x.length ≤ n) :
    resizeNumber fill x n = List.replicate (n - x.length) fill ++ x := if_pos h

theorem resizeNumber_of_lt {fill : Byte} {x : ByteString} {n : Nat} (h : n < x.length) :
    resizeNumber fill x n = x.drop (x.length - n) := if_neg (Nat.not_le.2 h)

/-- Zero fill weighs nothing, and what a shorter target drops counts multiples of 2^(8n). -/
theorem val_resizeNumber_zero (x : ByteString) (n : Nat) : val (resizeNumber 0x00#8 x n) = val x % 2 ^ (8 * n) := by
  by_cases h : x.length ≤ n
  · have hfits : val x < 2 ^ (8 * n) := (val_lt_two_pow x).trans_le (Nat.pow_le_pow_right (by decide) (by omega))
    have hfill : val (List.replicate (n - x.length) 0x00#8) = 0 := val_zeros _
    rw [resizeNumber_of_le h, val_append, hfill, Nat.mod_eq_of_lt hfits, Nat.zero_mul, Nat.zero_add]
  · have hkept : (x.drop (x.length - n)).length = n := by rw [List.length_drop]; omega
    have hsplit : val x = val (x.take (x.length - n)) * 2 ^ (8 * n) + val (x.drop (x.length - n)) := by
      conv_lhs => rw [← List.take_append_drop (x.length - n) x, val_append, hkept, ← pow_eight_mul]
    have hlt : val (x.drop (x.length - n)) < 2 ^ (8 * n) := by
      simpa only [hkept] using val_lt_two_pow (x.drop (x.length - n))
    rw [resizeNumber_of_lt (Nat.not_le.1 h), hsplit, Nat.mul_add_mod_of_lt hlt]

/-- The byte BNORM fills with. -/
def signByte (x : ByteString) : Byte := if signBit x then 0xFF#8 else 0x00#8

theorem signByte_eq (x : ByteString) : signByte x = if signedVal x < 0 then 0xFF#8 else 0x00#8 := by
  simp [signByte, signBit_eq_decide_neg]

theorem msb_signByte (x : ByteString) : (signByte x).msb = signBit x := by
  unfold signByte
  cases signBit x <;> rfl

theorem signBit_signByte_cons (x y : ByteString) : signBit (signByte x :: y) = signBit x := msb_signByte x

theorem signByte_signByte_cons (x y : ByteString) : signByte (signByte x :: y) = signByte x := by
  rw [signByte, signBit_signByte_cons, signByte]

theorem signByte_replicate_append (x : ByteString) (k : Nat) :
    signByte (List.replicate k (signByte x) ++ x) = signByte x := by
  cases k with
  | zero => rfl
  | succ k => exact signByte_signByte_cons x _

/-- One sign byte in front: 255 more of the old range, and the sign now takes off 256 of it instead of 1. -/
theorem signedVal_signByte_cons (x : ByteString) : signedVal (signByte x :: x) = signedVal x := by
  have hrange : (2 : Int) ^ (8 * (x.length + 1)) = 256 * 2 ^ (8 * x.length) := by rw [Nat.mul_add, pow_add]; ring
  rw [signedVal_eq, signedVal_eq x, signBit_signByte_cons, val_cons, List.length_cons, hrange, ← pow_eight_mul, signByte]
  cases signBit x
  · simp
  · simp only [↓reduceIte, BitVec.toNat_ofNat]
    push_cast
    ring

theorem signedVal_replicate_append (x : ByteString) (k : Nat) :
    signedVal (List.replicate k (signByte x) ++ x) = signedVal x := by
  induction k with
  | zero => rfl
  | succ k ih =>
    calc signedVal (List.replicate (k + 1) (signByte x) ++ x)
      _ = signedVal (signByte (List.replicate k (signByte x) ++ x) :: (List.replicate k (signByte x) ++ x)) := by
        rw [signByte_replicate_append, List.replicate_succ, List.cons_append]
      _ = signedVal x := by rw [signedVal_signByte_cons, ih]

end Sys2Proof.Machine
end

section
/-! SUPPORT. The proofs of the obligations of 44_bignum_logic_shift.md. -/

namespace Sys2Proof.Machine

/-- Settles O46: past the length check each command zips the operands with its byte operation. -/
theorem bitwiseCommands : Obligations.BitwiseCommands := by
  unfold Obligations.BitwiseCommands
  intro d a b s bytewise
  refine ⟨encodedAs_of_fields rfl (by simp [encode]), encodedAs_of_fields rfl (by simp [encode]),
    encodedAs_of_fields rfl (by simp [encode]), fun hl => ?_, fun hl => ?_⟩
  · have hzip : ∀ {i : Instr} {f : Byte → Byte → Byte},
        exec i s = requireSameLength (s.B a) (s.B b) s (writeB d (List.zipWith f (s.B a) (s.B b)) s) →
          Answers i s (bytewise f) := fun h =>
      answers_writeB_of (P := IsBytewise _ (s.B a) (s.B b)) (h.trans (requireSameLength_pos hl s _))
        (isBytewise_zipWith _ hl)
    exact ⟨hzip rfl, hzip rfl, hzip rfl⟩
  · exact ⟨answers_raise (requireSameLength_neg hl s _), answers_raise (requireSameLength_neg hl s _),
      answers_raise (requireSameLength_neg hl s _)⟩

/-- Settles O47: the logical shifts write the rule's number itself; the signed one carries the sign bit, the value's top
bit, into the place that halves the signed value. -/
theorem oneBitShifts : Obligations.OneBitShifts := by
  unfold Obligations.OneBitShifts
  intro d s x
  refine ⟨encodedAs_of_fields rfl (by simp [encode]), answers_writeB rfl rfl,
    encodedAs_of_fields rfl (by simp [encode]), answers_writeB rfl rfl,
    encodedAs_of_fields rfl (by simp [encode]), ?_⟩
  obtain ⟨t, ht, hw⟩ : Answers (.brsh1s d) s (WritesBignum d (shiftRightSigned x) s) := answers_writeB rfl rfl
  refine ⟨t, ht, ?_⟩
  simp only [hw.value]
  exact ⟨hw, shiftRightSigned_length x, fun hx => signBit_eq_testBit hx ▸ val_shiftRightSigned hx,
    signedVal_shiftRightSigned x⟩

/-- Settles O48: the zeros written for counts of 8L or more are what the rule's own formula encodes. -/
theorem shiftsByACount : Obligations.ShiftsByACount := by
  unfold Obligations.ShiftsByACount
  intro d x c s
  exact ⟨encodedAs_of_fields rfl (by simp [encode]), answers_writeB rfl (shiftLeft_eq_enc _ _),
    encodedAs_of_fields rfl (by simp [encode]), answers_writeB rfl (shiftRight_eq_enc _ _)⟩

/-- Settles O49: past the capacity check both commands resize at the front; sign bytes there keep the signed value, and zero
bytes the value modulo 2^(8n). -/
theorem normalizeCommands : Obligations.NormalizeCommands := by
  unfold Obligations.NormalizeCommands
  intro d x n s len l
  refine ⟨encodedAs_of_fields rfl (by simp [encode]), encodedAs_of_fields rfl (by simp [encode]),
    fun hcap => ⟨?_, ?_⟩, fun hcap => ⟨?_, ?_⟩⟩
  · obtain ⟨t, ht, hw⟩ : Answers (.bnorm d x n) s (WritesBignum d (resizeNumber (signByte (s.B x)) (s.B x) len) s) :=
      answers_writeB (requireCapacity_pos hcap _) rfl
    refine ⟨t, ht, ?_⟩
    simp only [hw.value, ← signByte_eq]
    refine ⟨hw, resizeNumber_length _ _ _, fun hle => ?_, resizeNumber_of_lt⟩
    rw [resizeNumber_of_le hle]
    exact ⟨rfl, signedVal_replicate_append _ _⟩
  · obtain ⟨t, ht, hw⟩ : Answers (.bnormu d x n) s (WritesBignum d (resizeNumber 0x00#8 (s.B x) len) s) :=
      answers_writeB (requireCapacity_pos hcap _) rfl
    refine ⟨t, ht, ?_⟩
    simp only [hw.value]
    exact ⟨hw, resizeNumber_length _ _ _, resizeNumber_of_le, resizeNumber_of_lt, val_resizeNumber_zero _ _⟩
  · exact answers_raise (requireCapacity_neg hcap _)
  · exact answers_raise (requireCapacity_neg hcap _)

end Sys2Proof.Machine
end

section
/-! SUPPORT. What the arithmetic commands make of two byte strings (45_bignum_arith.md): the bounds by which nothing is
truncated (R652, R653), the sum that wraps and comes back (R658), and the loops of R656 and R705 as one formula for any
number of rounds. -/

namespace Sys2Proof.Machine

/-- What a command that ends by writing two registers answers (R653). -/
theorem answers_writeBB {i : Instr} {s : State} {d d' : BReg} {x x' : ByteString} (hd : d ≠ d')
    (h : exec i s = writeBB d x d' x' s) : Answers i s (WritesTwoBignums d x d' x' s) := by
  obtain ⟨t, ht, hw⟩ := writeBB_spec hd x x' s
  exact ⟨t, h.trans ht, hw⟩

/-! ## Results that fit (R652, R653) -/

/-- Each operand fits the longer length, so their product fits twice that length (R652). -/
theorem mul_val_lt_doubled (x y : ByteString) : val x * val y < 2 ^ (8 * (2 * max x.length y.length)) := by
  obtain ⟨hx, hy⟩ := val_lt_longer x y
  calc val x * val y < 2 ^ (8 * max x.length y.length) * 2 ^ (8 * max x.length y.length) := Nat.mul_lt_mul'' hx hy
    _ = 2 ^ (8 * (2 * max x.length y.length)) := by rw [← pow_add]; congr 1; omega

/-- The quotient is at most the dividend (R653). -/
theorem div_val_lt_longer (x y : ByteString) : val x / val y < 2 ^ (8 * max x.length y.length) :=
  (Nat.div_le_self _ _).trans_lt (val_lt_longer x y).1

/-- The remainder is at most the dividend (R653). -/
theorem mod_val_lt_longer (x y : ByteString) : val x % val y < 2 ^ (8 * max x.length y.length) :=
  (Nat.mod_le _ _).trans_lt (val_lt_longer x y).1

/-- Taking the second operand from a sum that wrapped leaves the first, if it is below the modulus (R658). -/
theorem wrapped_sum_sub {x m : Nat} (h : x < m) (y : Nat) : ((((x + y) % m : Nat) : Int) - y) % m = x := by
  rw [Int.natCast_emod, Int.emod_sub_emod, Nat.cast_add, Int.add_sub_cancel]
  exact Int.emod_eq_of_lt (Int.natCast_nonneg x) (Int.ofNat_lt.2 h)

/-! ## The multiplier rounds (R656) -/

/-- One round moves the multiplier's low bit into the result and the rest of the product to the doubled multiplicand. -/
theorem mul_round (a b r : Nat) : r + (if b % 2 = 1 then a else 0) + 2 * a * (b / 2) = r + a * b := by
  obtain ⟨c, rfl | rfl⟩ := Nat.even_or_odd' b
  · rw [if_neg (by omega), show 2 * c / 2 = c by omega]
    ring
  · rw [if_pos (by omega), show (2 * c + 1) / 2 = c by omega]
    ring

theorem mulLoop_eq {m k a b r : Nat} (hb : b < 2 ^ k) (hr : r < m) : mulLoop m k a b r = (r + a * b) % m := by
  induction k generalizing a b r with
  | zero =>
    obtain rfl : b = 0 := by simpa using hb
    simpa [mulLoop] using (Nat.mod_eq_of_lt hr).symm
  | succ k ih =>
    have hhalf : b / 2 < 2 ^ k := by rw [pow_succ] at hb; omega
    calc mulLoop m (k + 1) a b r
      _ = ((r + if b % 2 = 1 then a else 0) % m + 2 * a % m * (b / 2)) % m :=
        ih hhalf (Nat.mod_lt _ (Nat.zero_lt_of_lt hr))
      _ = (r + (if b % 2 = 1 then a else 0) + 2 * a * (b / 2)) % m :=
        (Nat.mod_modEq _ m).add ((Nat.mod_modEq _ m).mul_right _)
      _ = (r + a * b) % m := by rw [mul_round]

/-- The multiplier's bits are fewer than the rounds, and the product is below the modulus. -/
theorem mulRounds_eq (x y : ByteString) : mulRounds x y = val x * val y := by
  have hy : val y < 2 ^ (8 * (2 * max x.length y.length)) :=
    (val_lt_longer x y).2.trans_le (Nat.pow_le_pow_right (by decide) (by omega))
  calc mulRounds x y
    _ = (0 + val x * val y) % 2 ^ (8 * (2 * max x.length y.length)) := mulLoop_eq hy (Nat.two_pow_pos _)
    _ = val x * val y := by rw [Nat.zero_add, Nat.mod_eq_of_lt (mul_val_lt_doubled x y)]

/-! ## The power rounds (R705) -/

/-- One round moves the exponent's low bit into the result and the rest of the power to the squared base. -/
theorem pow_round (r x e : Nat) : (if e % 2 = 1 then r * x else r) * (x * x) ^ (e / 2) = r * x ^ e := by
  obtain ⟨c, rfl | rfl⟩ := Nat.even_or_odd' e
  · rw [if_neg (by omega), show 2 * c / 2 = c by omega]
    ring
  · rw [if_pos (by omega), show (2 * c + 1) / 2 = c by omega]
    ring

theorem powLoop_eq {m k r x e : Nat} (he : e < 2 ^ k) (hr : r < m) : powLoop m k r x e = r * x ^ e % m := by
  induction k generalizing r x e with
  | zero =>
    obtain rfl : e = 0 := by simpa using he
    simpa [powLoop] using (Nat.mod_eq_of_lt hr).symm
  | succ k ih =>
    have hhalf : e / 2 < 2 ^ k := by rw [pow_succ] at he; omega
    have hfold : (if e % 2 = 1 then r * x % m else r) = (if e % 2 = 1 then r * x else r) % m := by
      rw [apply_ite (· % m), Nat.mod_eq_of_lt hr]
    calc powLoop m (k + 1) r x e
      _ = powLoop m k ((if e % 2 = 1 then r * x else r) % m) (x * x % m) (e / 2) := by rw [powLoop, hfold]
      _ = (if e % 2 = 1 then r * x else r) % m * (x * x % m) ^ (e / 2) % m :=
        ih hhalf (Nat.mod_lt _ (Nat.zero_lt_of_lt hr))
      _ = (if e % 2 = 1 then r * x else r) * (x * x) ^ (e / 2) % m :=
        (Nat.mod_modEq _ m).mul ((Nat.mod_modEq _ m).pow _)
      _ = r * x ^ e % m := by rw [pow_round]

theorem powMod_eq {rounds e m : Nat} (a : Nat) (hm : m ≠ 0) (he : e < 2 ^ rounds) : powMod rounds a e m = a ^ e % m :=
  calc powMod rounds a e m
    _ = 1 % m * (a % m) ^ e % m := powLoop_eq he (Nat.mod_lt 1 (Nat.pos_of_ne_zero hm))
    _ = 1 * a ^ e % m := (Nat.mod_modEq 1 m).mul ((Nat.mod_modEq a m).pow e)
    _ = a ^ e % m := by rw [Nat.one_mul]

end Sys2Proof.Machine
end

section
/-! SUPPORT. The proofs of the obligations of 45_bignum_arith.md. -/

namespace Sys2Proof.Machine

/-- Settles O50: both commands write an encoding at the longer length, whose value is the number modulo 2^(8L). -/
theorem baddAndBsubWrap : Obligations.BaddAndBsubWrap := by
  unfold Obligations.BaddAndBsubWrap
  intro d a b s l
  exact ⟨encodedAs_of_fields rfl (by simp [encode]),
    answers_writeB_of (P := fun x => x.length = l ∧ val x = (val (s.B a) + val (s.B b)) % 2 ^ (8 * l)) rfl
      ⟨enc_length _ _, val_enc_nat _ _⟩,
    encodedAs_of_fields rfl (by simp [encode]),
    answers_writeB_of (P := fun x => x.length = l ∧
      (val x : Int) = ((val (s.B a) : Int) - (val (s.B b) : Int)) % (2 ^ (8 * l) : Nat)) rfl
      ⟨enc_length _ _, val_enc _ _⟩⟩

/-- Settles O51: past the capacity check the product fits the length it is encoded at. -/
theorem bmulIsExact : Obligations.BmulIsExact := by
  unfold Obligations.BmulIsExact
  intro d a b s l
  exact ⟨encodedAs_of_fields rfl (by simp [encode]),
    fun hcap => answers_writeB_of (P := fun x => x.length = l ∧ val x = val (s.B a) * val (s.B b))
      (requireCapacity_pos hcap _) ⟨enc_length _ _, val_enc_of_lt (mul_val_lt_doubled _ _)⟩,
    fun hcap => answers_raise (requireCapacity_neg hcap _)⟩

/-- Settles O52: past the divisor check the three commands write the same two encodings, and both numbers fit. -/
theorem bignumDivision : Obligations.BignumDivision := by
  unfold Obligations.BignumDivision
  intro q r a b s l
  refine ⟨fun hqr => encodedAs_of_fields (by simpa [Instr.wf] using hqr) (by simp [encode]),
    encodedAs_of_fields rfl (by simp [encode]), encodedAs_of_fields rfl (by simp [encode]),
    fun hb => ?_, fun hb => ?_⟩
  · exact ⟨enc l (val (s.B a) / val (s.B b) : Nat), enc l (val (s.B a) % val (s.B b) : Nat),
      enc_length _ _, enc_length _ _,
      val_enc_of_lt (div_val_lt_longer _ _), val_enc_of_lt (mod_val_lt_longer _ _),
      fun hqr => answers_writeBB hqr (requireNonzero_pos hb s _),
      answers_writeB (requireNonzero_pos hb s _) rfl, answers_writeB (requireNonzero_pos hb s _) rfl⟩
  · exact ⟨answers_raise (requireNonzero_zero hb s _), answers_raise (requireNonzero_zero hb s _),
      answers_raise (requireNonzero_zero hb s _)⟩

/-- Settles O53: BDIV and BMOD write the quotient and the remainder themselves; BSUB works at the first operand's
length, which BADD's result has too, and there the sum's wrap is undone. -/
theorem divisionAndSumRoundTrips : Obligations.DivisionAndSumRoundTrips := by
  unfold Obligations.DivisionAndSumRoundTrips
  refine ⟨fun d a b s hb => ?_, fun d e a b s hl hdb => ?_⟩
  · obtain ⟨-, -, -, hdiv, -⟩ := bignumDivision d d a b s
    obtain ⟨x, y, -, -, hx, hy, -, ⟨t, ht, hw⟩, ⟨t', ht', hw'⟩⟩ := hdiv hb
    refine ⟨t, t', ht, ht', ?_⟩
    rw [hw.value, hw'.value, hx, hy]
    exact ⟨Nat.div_add_mod' _ _, Nat.mod_lt _ (Nat.pos_of_ne_zero hb)⟩
  · obtain ⟨-, ⟨t, ht, hw, hlen, hsum⟩, -, -⟩ := baddAndBsubWrap d a b s
    obtain ⟨-, -, -, ⟨t', ht', -, hlen', hdiff⟩⟩ := baddAndBsubWrap e d b t
    refine ⟨t, t', ht, ht', ?_⟩
    rw [Nat.max_eq_left hl] at hlen hsum
    rw [hw.bignums b hdb.symm, hlen, Nat.max_eq_left hl] at hlen' hdiff
    refine eq_of_val_eq hlen' ?_
    have hval : (val (t'.B e) : Int) = val (s.B a) := by
      rw [hdiff, hsum, wrapped_sum_sub (val_lt_two_pow _)]
    exact Int.ofNat_inj.1 hval

/-- Settles O55: each round keeps the result so far combined with what the remaining bits still contribute, and the rounds
cover every bit of the multiplier and of the exponent. -/
theorem productAndPowerRounds : Obligations.ProductAndPowerRounds := by
  unfold Obligations.ProductAndPowerRounds
  exact ⟨mulRounds_eq, fun _ a _ _ hm he => powMod_eq a hm he⟩

end Sys2Proof.Machine
end

section
/-! SUPPORT. The gcd and the canonical Bezout coefficient (46_bignum_exp_gcd.md R702, R710): the coefficient carried along
the Euclidean steps, its reduction to the canonical one, and why only one number is canonical. -/

namespace Sys2Proof.Machine

/-! ## The definition of canon_u (R710) -/

theorem isCanonical_zero (a u : Nat) : IsCanonical a 0 u ↔ u = if a = 0 then 0 else 1 := by
  rw [IsCanonical, if_pos rfl]

theorem isCanonical_iff {b : Nat} (hb : b ≠ 0) (a u : Nat) :
    IsCanonical a b u ↔ u < b / Nat.gcd a b ∧ u * a ≡ Nat.gcd a b [MOD b] := by
  rw [IsCanonical, if_neg hb, Nat.ModEq]

/-- For b = 0 the congruence is an equation: u is 1, or a is 0. -/
theorem IsCanonical.mul_modEq {a b u : Nat} (h : IsCanonical a b u) : u * a ≡ Nat.gcd a b [MOD b] := by
  rcases eq_or_ne b 0 with rfl | hb
  · obtain rfl := (isCanonical_zero a u).1 h
    rcases eq_or_ne a 0 with rfl | ha
    · rfl
    · rw [if_neg ha, Nat.one_mul, Nat.gcd_zero_right]
  · exact ((isCanonical_iff hb a u).1 h).2

/-- Two canonical numbers agree modulo b/g, and both are below it. -/
theorem IsCanonical.unique {a b u v : Nat} (hu : IsCanonical a b u) (hv : IsCanonical a b v) : u = v := by
  rcases eq_or_ne b 0 with rfl | hb
  · exact ((isCanonical_zero a u).1 hu).trans ((isCanonical_zero a v).1 hv).symm
  · have hmod : u ≡ v [MOD b / Nat.gcd b a] :=
      (hu.mul_modEq.trans hv.mul_modEq.symm).cancel_right_div_gcd (Nat.pos_of_ne_zero hb)
    rw [Nat.gcd_comm] at hmod
    exact hmod.eq_of_lt_of_lt ((isCanonical_iff hb a u).1 hu).1 ((isCanonical_iff hb a v).1 hv).1

/-- A canonical number is no larger than the larger operand (R703's corner cases). -/
theorem IsCanonical.le_max {a b u : Nat} (h : IsCanonical a b u) : u ≤ max a b := by
  rcases eq_or_ne b 0 with rfl | hb
  · obtain rfl := (isCanonical_zero a u).1 h
    split <;> omega
  · have hlt : u < b / Nat.gcd a b := ((isCanonical_iff hb a u).1 h).1
    exact (hlt.le.trans (Nat.div_le_self _ _)).trans (le_max_right a b)

/-- The congruence of R710, lifted to the integers, is the Bezout identity with some second coefficient. -/
theorem IsCanonical.bezout {a b u : Nat} (h : IsCanonical a b u) :
    ∃ v : Int, (u : Int) * a + v * b = (Nat.gcd a b : Int) := by
  have hmod : (u : Int) * a ≡ (Nat.gcd a b : Int) [ZMOD b] := by exact_mod_cast Int.natCast_modEq_iff.2 h.mul_modEq
  obtain ⟨v, hv⟩ := hmod.dvd
  exact ⟨v, by linarith⟩

/-! ## The Euclidean steps -/

/-- Each step keeps both remainders congruent to their coefficient times a, and the fuel above the second one, so the loop
ends at the gcd with its coefficient. -/
theorem bezoutLoop_mul_modEq {a b : Int} {k r r' : Nat} {u u' : Int} (hfuel : r' < k) (hr : u * a ≡ r [ZMOD b])
    (hr' : u' * a ≡ r' [ZMOD b]) : bezoutLoop k r r' u u' * a ≡ Nat.gcd r r' [ZMOD b] := by
  induction k generalizing r r' u u' with
  | zero => exact absurd hfuel (Nat.not_lt_zero _)
  | succ k ih =>
    rw [bezoutLoop]
    split_ifs with h0
    · simpa only [h0, Nat.gcd_zero_right] using hr
    · have hlt : r % r' < r' := Nat.mod_lt _ (Nat.pos_of_ne_zero h0)
      have hstep : (u - (r / r' : Nat) * u') * a ≡ (r % r' : Nat) [ZMOD b] :=
        calc (u - (r / r' : Nat) * u') * a
          _ = u * a - (r / r' : Nat) * (u' * a) := by ring
          _ ≡ r - (r / r' : Nat) * r' [ZMOD b] := hr.sub (hr'.mul_left _)
          _ = (r % r' : Nat) := by rw [Int.natCast_emod, Int.emod_def, Int.natCast_ediv, Int.mul_comm]
      rw [Nat.gcd_comm r r', Nat.gcd_rec r' r, Nat.gcd_comm (r % r') r']
      exact ih (by omega) hr' hstep

/-- A coefficient may be reduced modulo b/g, since b divides (b/g)·a. -/
theorem emod_div_gcd_mul_modEq (w : Int) (a b : Nat) :
    w % ((b / Nat.gcd a b : Nat) : Int) * a ≡ w * a [ZMOD b] := by
  have hdvd : (b : Int) ∣ ((b / Nat.gcd a b : Nat) : Int) * a := by
    rw [← Int.natCast_mul, Int.natCast_dvd_natCast, Nat.div_mul_right_comm (Nat.gcd_dvd_right a b),
      Nat.mul_div_assoc _ (Nat.gcd_dvd_left a b)]
    exact Nat.dvd_mul_right _ _
  exact (Int.mod_modEq w _).mul_right'.of_dvd hdvd

theorem isCanonical_canonU (a b : Nat) : IsCanonical a b (canonU a b) := by
  rcases eq_or_ne b 0 with rfl | hb
  · rw [isCanonical_zero, canonU, if_pos rfl]
  · rw [isCanonical_iff hb, canonU, if_neg hb]
    have hpos : (0 : Int) < (b / Nat.gcd a b : Nat) :=
      Int.natCast_pos.2 (Nat.div_gcd_pos_of_pos_right a (Nat.pos_of_ne_zero hb))
    have hloop : bezoutLoop (b + 1) a b 1 0 * a ≡ Nat.gcd a b [ZMOD b] :=
      bezoutLoop_mul_modEq (Nat.lt_succ_self b) (by rw [Int.one_mul]) (by simp [Int.ModEq])
    refine ⟨(Int.toNat_lt (Int.emod_nonneg _ hpos.ne')).2 (Int.emod_lt_of_pos _ hpos), ?_⟩
    rw [← Int.natCast_modEq_iff, Int.natCast_mul, Int.toNat_of_nonneg (Int.emod_nonneg _ hpos.ne')]
    exact (emod_div_gcd_mul_modEq _ a b).trans hloop

/-! ## Results that fit (R702, R703) -/

theorem val_enc_canonU (x y : ByteString) :
    val (enc (longerLength x y) ((canonU (val x) (val y) : Nat) : Int)) = canonU (val x) (val y) :=
  val_enc_of_lt ((isCanonical_canonU _ _).le_max.trans_lt (max_lt (val_lt_longer x y).1 (val_lt_longer x y).2))

/-- The gcd divides an operand that is not 0, and is 0 if there is none. -/
theorem gcd_le_max (a b : Nat) : Nat.gcd a b ≤ max a b := by
  rcases Nat.eq_zero_or_pos b with rfl | hb
  · rw [Nat.gcd_zero_right]; exact le_max_left a 0
  · exact (Nat.gcd_le_right a hb).trans (le_max_right a b)

theorem val_enc_gcd (x y : ByteString) :
    val (enc (longerLength x y) ((Nat.gcd (val x) (val y) : Nat) : Int)) = Nat.gcd (val x) (val y) :=
  val_enc_of_lt ((gcd_le_max _ _).trans_lt (max_lt (val_lt_longer x y).1 (val_lt_longer x y).2))

/-! ## Powers (R700, R701) -/

/-- BPOW's 8·len(Be) rounds cover the exponent, and the modulus is the one enc reduces by (R706). -/
theorem enc_powMod (len a : Nat) (e : ByteString) :
    enc len ((powMod (8 * e.length) a (val e) (2 ^ (8 * len)) : Nat) : Int) = enc len ((a ^ val e : Nat) : Int) := by
  rw [powMod_eq a (Nat.two_pow_pos _).ne' (val_lt_two_pow e), Int.natCast_emod]
  exact enc_congr (Int.emod_emod _ _)

/-- BMODPOW's 8W rounds cover the exponent, W being at least the exponent's length, and the power is below the modulus
(R705). -/
theorem val_enc_powMod {w : Nat} {e m : ByteString} (a : Nat) (hw : e.length ≤ w) (hm : val m ≠ 0) :
    val (enc m.length ((powMod (8 * w) a (val e) (val m) : Nat) : Int)) = a ^ val e % val m := by
  have he : val e < 2 ^ (8 * w) := (val_lt_two_pow e).trans_le (Nat.pow_le_pow_right (by decide) (by omega))
  rw [powMod_eq a hm he]
  exact val_enc_of_lt ((Nat.mod_lt _ (Nat.pos_of_ne_zero hm)).trans (val_lt_two_pow m))

end Sys2Proof.Machine
end

section
/-! SUPPORT. The proofs of the obligations of 46_bignum_exp_gcd.md. -/

namespace Sys2Proof.Machine

/-- Settles O56: past their checks both commands write the loop's result, whose rounds cover the exponent. -/
theorem powerCommands : Obligations.PowerCommands := by
  unfold Obligations.PowerCommands
  intro d a e m n s len
  exact ⟨encodedAs_of_fields rfl (by simp [encode]), encodedAs_of_fields rfl (by simp [encode]),
    fun hcap => answers_writeB (requireCapacity_pos hcap _) (enc_powMod _ _ _),
    fun hcap => answers_raise (requireCapacity_neg hcap _),
    fun hm => answers_writeB_of
      (P := fun x => x.length = (s.B m).length ∧ val x = val (s.B a) ^ val (s.B e) % val (s.B m))
      (requireNonzero_pos hm s _) ⟨enc_length _ _, val_enc_powMod _ (by omega) hm⟩,
    fun hm => answers_raise (requireNonzero_zero hm s _)⟩

/-- Settles O57: both commands write the gcd at the longer length, BXGCD also the canonical coefficient, and neither is
larger than the larger operand. -/
theorem gcdCommands : Obligations.GcdCommands := by
  unfold Obligations.GcdCommands
  intro u g a b s l
  exact ⟨fun hug => encodedAs_of_fields (by simpa [Instr.wf] using hug) (by simp [encode]),
    encodedAs_of_fields rfl (by simp [encode]),
    enc l (canonU (val (s.B a)) (val (s.B b)) : Nat), enc l (Nat.gcd (val (s.B a)) (val (s.B b)) : Nat),
    enc_length _ _, enc_length _ _, val_enc_gcd _ _, (val_enc_canonU _ _).symm ▸ isCanonical_canonU _ _,
    answers_writeB rfl rfl, fun hug => answers_writeBB hug rfl⟩

/-- Settles O58: the loop's coefficient reduced modulo b/g is canonical, and a canonical number is unique and a Bezout
coefficient. -/
theorem canonicalCoefficientIsUnique : Obligations.CanonicalCoefficientIsUnique := by
  unfold Obligations.CanonicalCoefficientIsUnique
  intro a b
  have h := isCanonical_canonU a b
  exact ⟨h, fun _ hu => hu.unique h, h.bezout⟩

/-- Settles O59: past both checks the canonical coefficient is below m/1, and its product with x is the gcd, 1, modulo m. -/
theorem bmodinvFindsTheInverse : Obligations.BmodinvFindsTheInverse := by
  unfold Obligations.BmodinvFindsTheInverse
  intro d x m s
  refine ⟨encodedAs_of_fields rfl (by simp [encode]), fun hm => answers_raise (requireNonzero_zero hm s _),
    fun hm hg => answers_raise ((requireNonzero_pos hm s _).trans (if_pos hg)), fun hm hg => ?_⟩
  obtain ⟨hlt, hmul⟩ := (isCanonical_iff hm _ _).1 (isCanonical_canonU (val (s.B x)) (val (s.B m)))
  rw [hg] at hlt hmul
  refine answers_writeB_of (P := fun y => y.length = max (s.B x).length (s.B m).length ∧ val y < val (s.B m) ∧
      val y * val (s.B x) % val (s.B m) = 1 % val (s.B m))
    ((requireNonzero_pos hm s _).trans (if_neg (not_not.2 hg))) ⟨enc_length _ _, ?_⟩
  rw [val_enc_canonU]
  exact ⟨by simpa using hlt, hmul⟩

end Sys2Proof.Machine
end

section
/-! SUPPORT. Which exceptions a command and an engine step can take (60_exceptions.md R801, R806, R811): the outcomes of a
command, read off its kind of effect, and why FetchFault comes from a fetch alone. -/

namespace Sys2Proof.Machine

/-! ## The table of R811 -/

/-- The different rows of R811's table. -/
def exceptionRows : List (List Exn) :=
  [[], [.lengthMismatch], [.divisionByZero], [.divisionByZero, .inverseNotFound], [.capacityExceeded],
    [.capacityExceeded, .dataAddressFault], [.dataAddressFault]]

theorem exceptionsOf_mem_rows (i : Instr) : exceptionsOf i ∈ exceptionRows := by
  cases i <;> simp only [exceptionsOf, exceptionRows, List.mem_cons, true_or, or_true]

theorem not_lengthMismatch_and_divisionByZero (i : Instr) :
    ¬ (Exn.lengthMismatch ∈ exceptionsOf i ∧ Exn.divisionByZero ∈ exceptionsOf i) := by
  have hrows : ∀ row ∈ exceptionRows, ¬ (Exn.lengthMismatch ∈ row ∧ Exn.divisionByZero ∈ row) := by decide
  exact hrows _ (exceptionsOf_mem_rows i)

theorem fetchFault_notMem_exceptionsOf (i : Instr) : Exn.fetchFault ∉ exceptionsOf i := by
  have hrows : ∀ row ∈ exceptionRows, Exn.fetchFault ∉ row := by decide
  exact hrows _ (exceptionsOf_mem_rows i)

/-! ## The outcomes of a command -/

/-- A command that writes a register, F or DMEM completes; the other kinds of effect are HALT's and an exception's. -/
theorem exec_outcome {i : Instr} {s t : State} (h : exec i s = .next t) :
    (∃ e ∈ exceptionsOf i, Raises e s t) ∨ (i = .halt ∧ Halts s t) ∨
    (i ≠ .halt ∧ SameStatus s t ∧ t.pc = s.pc + 1) := by
  cases exec_effect h with
  | scalar | bignum | bignums | flag | store => exact .inr (.inr ⟨‹i ≠ .halt›, ⟨rfl, rfl, rfl, rfl⟩, rfl⟩)
  | halt hi =>
    obtain ⟨_, ⟨⟩, hhalts⟩ := execHalt_spec s
    exact .inr (.inl ⟨hi, hhalts⟩)
  | raised e he => exact .inl ⟨e, he, raises_trapped e s⟩

/-! ## The code of FetchFault -/

theorem Exn.code_eq_fetchFault_iff {e : Exn} : e.code = Exn.fetchFault.code ↔ e = .fetchFault := by
  cases e <;> decide

theorem Raises.cause_ne_fetchFault {e : Exn} {s t : State} (h : Raises e s t) (he : e ≠ .fetchFault) :
    t.cause ≠ Exn.fetchFault.code := by
  rw [h.cause]
  exact mt Exn.code_eq_fetchFault_iff.1 he

/-- No command raises FetchFault, so CAUSE reads its code after a command only if it did before. -/
theorem exec_cause_ne_fetchFault {i : Instr} {s t : State} (h : exec i s = .next t)
    (hs : s.cause ≠ Exn.fetchFault.code) : t.cause ≠ Exn.fetchFault.code := by
  rcases exec_outcome h with ⟨e, he, hraises⟩ | ⟨_, hhalts⟩ | ⟨_, hstatus, _⟩
  · exact hraises.cause_ne_fetchFault (ne_of_mem_of_not_mem he (fetchFault_notMem_exceptionsOf i))
  · rwa [hhalts.cause]
  · rwa [hstatus.cause]

/-! ## The engine step -/

theorem step_engineNext_busy {s s₀ : State} (hnext : EngineNext s s₀) (hbusy : s₀.busy = true) :
    step s = engineStep s₀ :=
  (step_engineNext hnext).trans (engineTurn_busy hbusy)

theorem engineStep_fetchFault {s : State} (hpc : s.cfg.imemWords ≤ s.pc.toNat) :
    engineStep s = raise .fetchFault s := by
  simp [engineStep, fetch_eq_none.2 hpc]

/-- A fetch inside IMEM succeeds, and neither an illegal word nor a command raises FetchFault. -/
theorem engineStep_cause_ne_fetchFault {s t : State} (hpc : s.pc.toNat < s.cfg.imemWords)
    (hs : s.cause ≠ Exn.fetchFault.code) (h : engineStep s = .next t) : t.cause ≠ Exn.fetchFault.code := by
  rcases engineStep_cases s with ⟨hge, _⟩ | ⟨_, _, _, hraise⟩ | ⟨_, i, _, hexec⟩
  · exact absurd hge hpc.not_ge
  · rw [raise_next.1 (hraise.symm.trans h)]
    exact (raises_trapped .illegalInstruction s).cause_ne_fetchFault nofun
  · exact exec_cause_ne_fetchFault (hexec.symm.trans h) hs

end Sys2Proof.Machine
end

section
/-! SUPPORT. The proofs of the obligations of 60_exceptions.md. -/

namespace Sys2Proof.Machine

/-- Settles O8: where the engine acts next on a running state, the step is its engine step, and that takes FetchFault in a
failed fetch alone. -/
theorem fetchAndDecodeExceptions : Obligations.FetchAndDecodeExceptions := by
  unfold Obligations.FetchAndDecodeExceptions
  intro s s₀ hnext hbusy
  rw [step_engineNext_busy hnext hbusy]
  refine ⟨fun hpc => ?_, fun hpc e he => ?_, fun hpc hcause t ht => engineStep_cause_ne_fetchFault hpc hcause ht⟩
  · rw [engineStep_fetchFault hpc]
    exact raise_spec .fetchFault s₀
  · rw [engineStep_illegal hpc he]
    exact raise_spec .illegalInstruction s₀

/-- Settles O11: the outcome is read off the command's kind of effect, and no row of R811's table names both exceptions. -/
theorem commandOutcomes : Obligations.CommandOutcomes := by
  unfold Obligations.CommandOutcomes
  exact ⟨fun _ _ _ => exec_outcome, not_lengthMismatch_and_divisionByZero, by decide⟩

end Sys2Proof.Machine
end

section
/-! SUPPORT. What a word that decodes says (30_encoding.md R308 to R311): its row's checks passed, so the bits of the word
are the opcode and the operand fields, and nothing else. -/

namespace Sys2Proof

/-- The word whose opcode is op, whose operand fields of the format are those of w, and whose other bits are zero. -/
def rebuild (f : Format) (op : BitVec 8) (w : Word) : Word :=
  match f with
  | .N => fieldsWord op 0 0 0 0
  | .R1 => fieldsWord op (f1Field w) 0 0 0
  | .R2 => fieldsWord op (f1Field w) (f2Field w) 0 0
  | .R3 => fieldsWord op (f1Field w) (f2Field w) (f3Field w) 0
  | .R4 => fieldsWord op (f1Field w) (f2Field w) (f3Field w) (f4Field w)
  | .I => immWord op (f1Field w) (immField w)

/-- A word with no reserved bit set has no bits but its opcode and its operand fields (R308). -/
theorem rebuild_of_clean {f : Format} {op : BitVec 8} {w : Word} (ho : opField w = op) (hc : reservedClean f w = true) :
    rebuild f op w = w := by
  cases f with
  | N => exact fieldsWord_of_clean_N ho hc
  | R1 => exact fieldsWord_of_clean_R1 ho hc
  | R2 => exact fieldsWord_of_clean_R2 ho hc
  | R3 => exact fieldsWord_of_clean_R3 ho hc
  | R4 => exact fieldsWord_of_clean_R4 ho hc
  | I => exact immWord_of_clean ho hc

/-- The row an opcode leads to reads every operand from the field the encoder puts it in. -/
theorem encode_of_rebuild {i : Instr} {w : Word} (ho : (opField w).toNat = i.opcode.toNat)
    (hc : reservedClean i.format w = true) (hi : encode i = rebuild i.format i.opcode w) : encode i = w :=
  hi.trans (rebuild_of_clean (BitVec.eq_of_toNat_eq ho) hc)

/-- A word that decodes passed its row's checks, and the command's operands stand in the fields they were read from. -/
theorem encode_of_decode {w : Word} {i : Instr} (h : decode w = .ok i) : i.wf = true ∧ encode i = w := by
  unfold decode at h
  dsimp only at h
  -- Row 12 is FTST, 40 and 46 are the commands with two destinations, 48 is the row for every other opcode.
  split at h
  case h_12 ho =>
    obtain ⟨hc, c, hcode, rfl⟩ := acceptFtst_ok h
    refine ⟨rfl, encode_of_rebuild ho hc ?_⟩
    simp only [encode, code_ofCode? hcode]
    rfl
  case h_40 | h_46 =>
    obtain ⟨hc, hwf, rfl⟩ := acceptWf_ok h
    exact ⟨hwf, encode_of_rebuild ‹_› hc rfl⟩
  case h_48 => cases h
  all_goals
    obtain ⟨hc, rfl⟩ := acceptClean_ok h
    exact ⟨rfl, encode_of_rebuild ‹_› hc rfl⟩

end Sys2Proof
end

section
/-! SUPPORT. What every command and every step has in common: it answers a next state, changes nothing but its
destinations, and leaves the system's part of the state alone (10_state.md R102, R106, R109, 60_exceptions.md R806). -/

namespace Sys2Proof.Machine

/-! ## A next state -/

/-- A result that is a next state. -/
def HasNext (r : Result) : Prop := ∃ t, r = .next t

theorem hasNext_next (t : State) : HasNext (.next t) := ⟨t, rfl⟩

theorem hasNext_raise (e : Exn) (s : State) : HasNext (raise e s) := ⟨_, rfl⟩

/-- A check answers what it guards or takes an exception. -/
theorem hasNext_ite {p : Prop} [Decidable p] {r r' : Result} (h : HasNext r) (h' : HasNext r') :
    HasNext (if p then r else r') := by
  split
  · exact h
  · exact h'

section
variable {s : State} {k : Result} (hk : HasNext k)
include hk

theorem hasNext_requireDmem (addr n : Nat) : HasNext (requireDmem addr n s k) := hasNext_ite hk (hasNext_raise _ s)

theorem hasNext_requireCapacity (n : Nat) : HasNext (requireCapacity n s k) := hasNext_ite (hasNext_raise _ s) hk

theorem hasNext_requireSameLength (a b : ByteString) : HasNext (requireSameLength a b s k) :=
  hasNext_ite (hasNext_raise _ s) hk

theorem hasNext_requireNonzero (v : Nat) : HasNext (requireNonzero v s k) := hasNext_ite (hasNext_raise _ s) hk

end

/-- A command's checks stand in front of a write, which completes. -/
theorem exec_hasNext (i : Instr) (s : State) : HasNext (exec i s) := by
  cases i with
  | halt | lil | lih | sadd | ssub | sshl | sshr | scmp | ssel | ftst | fpars | fparb | bmov | blen | beq | btrml | btrmr
  | blsh1 | brsh1 | brsh1s | bshl | bshr | badd | bsub | bgcd | bxgcd => exact hasNext_next _
  | bst | sld | sst => exact hasNext_requireDmem (hasNext_next _) ..
  | bld => exact hasNext_requireCapacity (hasNext_requireDmem (hasNext_next _) ..) _
  | brsz | bnorm | bnormu | bmul | bpow => exact hasNext_requireCapacity (hasNext_next _) _
  | bcmp | bsel | band | bor | bxor => exact hasNext_requireSameLength (hasNext_next _) ..
  | sdiv | smod | bdivmod | bdiv | bmod | bmodpow => exact hasNext_requireNonzero (hasNext_next _) _
  | bmodinv => exact hasNext_requireNonzero (hasNext_ite (hasNext_raise ..) (hasNext_next _)) _

theorem engineStep_hasNext (s : State) : HasNext (engineStep s) := by
  rcases engineStep_cases s with ⟨_, h⟩ | ⟨_, _, _, h⟩ | ⟨_, i, _, h⟩
  · exact h ▸ hasNext_raise _ s
  · exact h ▸ hasNext_raise _ s
  · exact h ▸ exec_hasNext i s

theorem engineTurn_hasNext (s : State) : HasNext (engineTurn s) := hasNext_ite (engineStep_hasNext s) (hasNext_next s)

theorem runEvent_hasNext (e : Event) (s : State) : HasNext (runEvent e s) := by
  cases e with
  | engine => exact engineTurn_hasNext s
  | hostRead | hostWrite | reset => exact hasNext_next _

theorem step_hasNext (s : State) : HasNext (step s) := by
  cases h : s.schedule with
  | nil => exact step_alone h ▸ engineTurn_hasNext s
  | cons e es => exact step_event h ▸ runEvent_hasNext e _

/-! ## What a command leaves unchanged -/

section
variable {i : Instr} {s t : State} (h : exec i s = .next t)
include h

theorem exec_scalars {r : SReg} (hr : scalarDest i ≠ some r) : t.S r = s.S r := by
  cases exec_effect h with
  | scalar d v hd => exact State.S_setS_ne s v fun e => hr (e ▸ hd)
  | bignum | bignums | flag | store | halt | raised => rfl

theorem exec_bignums {r : BReg} (hr : r ∉ bignumDests i) : t.B r = s.B r := by
  cases exec_effect h with
  | bignum d x _ hd =>
    rw [hd, List.mem_singleton] at hr
    exact State.B_setB_ne s x hr
  | bignums d x d' x' _ hd =>
    simp only [hd, List.mem_cons, List.not_mem_nil, or_false, not_or] at hr
    obtain ⟨hne, hne'⟩ := hr
    exact (State.B_setB_ne (s.setB d x) x' hne').trans (State.B_setB_ne s x hne)
  | scalar | flag | store | halt | raised => rfl

theorem exec_memory (hm : storeRange i s = none) : SameMemory s t := by
  cases exec_effect h with
  | store addr x _ _ _ hm' => exact absurd (hm'.symm.trans hm) nofun
  | scalar | bignum | bignums | flag | halt | raised => exact fun _ => rfl

theorem exec_memoryOutside {addr n : Nat} (hm : storeRange i s = some (addr, n)) : SameMemoryOutside addr n s t := by
  cases exec_effect h with
  | store addr' x _ _ _ hm' =>
    obtain ⟨rfl, rfl⟩ : addr' = addr ∧ x.length = n := by simpa using hm'.symm.trans hm
    exact fun a ha => dmemByte_memWrite_outside s x ha
  | scalar | bignum | bignums | flag | halt | raised => exact fun _ _ => rfl

theorem exec_sameSystem : SameSystem s t := by
  cases exec_effect h with
  | scalar | bignum | bignums | flag | store | halt | raised => exact ⟨rfl, fun _ => rfl, rfl, rfl, rfl, rfl, rfl⟩

end

/-- An engine step takes an exception or runs a command, and both leave the system's part alone. -/
theorem engineStep_sameSystem {s t : State} (h : engineStep s = .next t) : SameSystem s t := by
  rcases engineStep_cases s with ⟨_, hs⟩ | ⟨_, _, _, hs⟩ | ⟨_, i, _, hs⟩
  · exact raise_next.1 (hs.symm.trans h) ▸ (raises_trapped _ s).system
  · exact raise_next.1 (hs.symm.trans h) ▸ (raises_trapped _ s).system
  · exact exec_sameSystem (hs.symm.trans h)

theorem engineStep_decoded {s : State} {i : Instr} (hpc : s.pc.toNat < s.cfg.imemWords)
    (hd : decode (s.imemWord s.pc.toNat) = .ok i) : engineStep s = exec i s := by
  simp [engineStep, fetch_eq_some.2 ⟨hpc, rfl⟩, hd]

end Sys2Proof.Machine
end

section
/-! SUPPORT. The two windows of the host port (20_memory.md R210 to R214) and the bits of STATUS: which addresses name a
window, what a transaction does there while idle and while BUSY = 1, and everything a host write can do. -/

namespace Sys2Proof.Machine

/-! ## The window addresses (R210, R211) -/

theorem hostTarget_imem {addr : Word} (hlow : 0x10000 ≤ addr.toNat) (hhigh : addr.toNat < 0x20000) :
    hostTarget addr = .imem ((addr.toNat - 0x10000) / 4) := by
  have notRegister : ¬ addr.toNat / 4 * 4 < 0x10000 := by omega
  have inImem : addr.toNat / 4 * 4 < 0x20000 := by omega
  have hindex : (addr.toNat / 4 * 4 - 0x10000) / 4 = (addr.toNat - 0x10000) / 4 := by omega
  simp only [hostTarget, if_neg notRegister, if_pos inImem, hindex]

theorem hostTarget_dmem {addr : Word} (hlow : 0x100000 ≤ addr.toNat) (hhigh : addr.toNat < 0x200000) :
    hostTarget addr = .dmem (addr.toNat / 4 * 4 - 0x100000) := by
  have notRegister : ¬ addr.toNat / 4 * 4 < 0x10000 := by omega
  have notImem : ¬ addr.toNat / 4 * 4 < 0x20000 := by omega
  have inDmem : 0x100000 ≤ addr.toNat / 4 * 4 ∧ addr.toNat / 4 * 4 < 0x200000 := by omega
  simp only [hostTarget, if_neg notRegister, if_neg notImem, if_pos inDmem]

/-- The host address of IMEM word i. -/
theorem hostTarget_imemWord {i : Nat} (hi : i < 0x4000) : hostTarget (BitVec.ofNat 32 (0x10000 + 4 * i)) = .imem i := by
  have haddr : (BitVec.ofNat 32 (0x10000 + 4 * i)).toNat = 0x10000 + 4 * i := by
    rw [BitVec.toNat_ofNat, Nat.mod_eq_of_lt (by omega)]
  have hindex : (0x10000 + 4 * i - 0x10000) / 4 = i := by omega
  rw [hostTarget_imem (by omega) (by omega), haddr, hindex]

/-- The host address of the DMEM word at byte address a. -/
theorem hostTarget_dmemWord {a : Nat} (hword : a % 4 = 0) (ha : a < 0x100000) :
    hostTarget (BitVec.ofNat 32 (0x100000 + a)) = .dmem a := by
  have haddr : (BitVec.ofNat 32 (0x100000 + a)).toNat = 0x100000 + a := by
    rw [BitVec.toNat_ofNat, Nat.mod_eq_of_lt (by omega)]
  have haligned : (0x100000 + a) / 4 * 4 - 0x100000 = a := by omega
  rw [hostTarget_dmem (by omega) (by omega), haddr, haligned]

/-- The DMEM window names word addresses only. -/
theorem hostTarget_dmem_aligned {addr : Word} {a : Nat} (h : hostTarget addr = .dmem a) : a % 4 = 0 := by
  unfold hostTarget at h
  dsimp only at h
  split at h
  · cases h
  split at h
  · cases h
  split at h
  · have ha := HostTarget.dmem.inj h
    omega
  · cases h

/-! ## A window while BUSY = 0 (R212, R213) -/

section
variable {s : State} {addr : Word} (hidle : s.busy = false)
include hidle

theorem hostReadValue_imem {i : Nat} (h : hostTarget addr = .imem i) :
    hostReadValue s addr = if i < s.cfg.imemWords then s.imemWord i else 0x0#32 := by
  simp [hostReadValue, h, hidle]

theorem hostReadValue_dmem {a : Nat} (h : hostTarget addr = .dmem a) :
    hostReadValue s addr = if a < s.cfg.dmemBytes then bytesWord (s.memRead a 4) else 0x0#32 := by
  simp [hostReadValue, h, hidle]

theorem hostWrite_imem {i : Nat} (h : hostTarget addr = .imem i) (v : Word) :
    hostWrite addr v s = if i < s.cfg.imemWords then s.setImemWord i v else s := by
  simp [hostWrite, h, hidle]

theorem hostWrite_dmem {a : Nat} (h : hostTarget addr = .dmem a) (v : Word) :
    hostWrite addr v s = if a < s.cfg.dmemBytes then s.memWrite a (wordBytes v) else s := by
  simp [hostWrite, h, hidle]

end

/-! ## A window while BUSY = 1 (R214) -/

/-- The address names one of the two windows. -/
def InWindow (addr : Word) : Prop := (∃ i, hostTarget addr = .imem i) ∨ ∃ a, hostTarget addr = .dmem a

section
variable {s : State} {addr : Word} (hbusy : s.busy = true) (hw : InWindow addr)
include hbusy hw

theorem hostReadValue_closed : hostReadValue s addr = Config.busyWindowRead s.draws := by
  rcases hw with ⟨_, h⟩ | ⟨_, h⟩ <;> simp [hostReadValue, h, hbusy]

theorem hostWrite_closed (v : Word) : hostWrite addr v s = s := by
  rcases hw with ⟨_, h⟩ | ⟨_, h⟩ <;> simp [hostWrite, h, hbusy]

/-- A closed window takes no write, and two states with the same count of reads answer a read alike. -/
theorem window_closed (v : Word) : hostWrite addr v s = s ∧
    ∀ s' : State, s'.busy = true → s'.draws = s.draws → hostReadValue s' addr = hostReadValue s addr := by
  refine ⟨hostWrite_closed hbusy hw v, fun s' hbusy' hdraws => ?_⟩
  rw [hostReadValue_closed hbusy' hw, hostReadValue_closed hbusy hw, hdraws]

end

/-! ## The four bytes of a word (R204) -/

/-- Four bytes make a word whose bytes they are. -/
theorem wordBytes_bytesWord {x : ByteString} (hx : x.length = 4) : wordBytes (bytesWord x) = x := by
  have hlt : val x < 2 ^ 32 := by simpa [hx] using val_lt x
  have hval : (bytesWord x).toNat = val x := Nat.mod_eq_of_lt hlt
  calc wordBytes (bytesWord x) = enc x.length (val x : Int) := by rw [wordBytes, hval, hx]
    _ = x := enc_val x

theorem wordBytes_getElem (v : Word) {k : Nat} (hk : k < 4) :
    (wordBytes v)[k]'(by simpa using hk) = v.extractLsb' (24 - 8 * k) 8 := by
  simp only [wordBytes_eq]
  interval_cases k <;> rfl

theorem toNat_bytesWord_memRead_four (s : State) (a : Nat) :
    (bytesWord (s.memRead a 4)).toNat = (s.dmemByte a).toNat * 2 ^ 24 + (s.dmemByte (a + 1)).toNat * 2 ^ 16 +
      (s.dmemByte (a + 2)).toNat * 2 ^ 8 + (s.dmemByte (a + 3)).toNat := by
  have h0 := (s.dmemByte a).isLt
  have h1 := (s.dmemByte (a + 1)).isLt
  have h2 := (s.dmemByte (a + 2)).isLt
  have h3 := (s.dmemByte (a + 3)).isLt
  rw [bytesWord_memRead_four, BitVec.toNat_ofNat, Nat.mod_eq_of_lt (by omega)]

theorem memRead_congr {s t : State} (h : SameMemory s t) (a n : Nat) : t.memRead a n = s.memRead a n :=
  List.map_congr_left fun k _ => h (a + k)

/-! ## STATUS and IRQ (R132, R820) -/

theorem statusWord_toNat (s : State) :
    (statusWord s).toNat = s.busy.toNat + 2 * s.done.toNat + 4 * s.err.toNat := by
  unfold statusWord
  cases s.busy <;> cases s.done <;> cases s.err <;> rfl

theorem statusWrite_eq (v : Word) (s : State) : statusWrite v s =
    { s with done := if v.getLsbD 1 then false else s.done, err := if v.getLsbD 2 then false else s.err } := by
  have and_not (b c : Bool) : (b && !c) = if c then false else b := by cases c <;> simp
  simp only [statusWrite, and_not]

theorem irq_eq_true_iff (s : State) : irq s = true ↔ s.irqEn = true ∧ (s.done = true ∨ s.err = true) := by
  simp [irq]

theorem irq_eq_false {s : State} (hdone : s.done = false) (herr : s.err = false) : irq s = false := by
  simp [irq, hdone, herr]

/-! ## What a host write can do -/

/-- Every kind of effect a host write of v can have. -/
inductive WriteEffect (v : Word) (s : State) : State → Prop where
  /-- The address takes no write, or the window is closed. -/
  | ignored : WriteEffect v s s
  | ctrl : WriteEffect v s (ctrlWrite v s)
  | status : WriteEffect v s (statusWrite v s)
  | pc : WriteEffect v s (pcWrite v s)
  /-- A command word stored within IMEM. -/
  | imem (i : Nat) (hi : i < s.cfg.imemWords) : WriteEffect v s (s.setImemWord i v)
  /-- A word stored at a word address within DMEM. -/
  | dmem (a : Nat) (ha : a < s.cfg.dmemBytes) (hword : a % 4 = 0) : WriteEffect v s (s.memWrite a (wordBytes v))

theorem registerWrite_effect (offset : Nat) (v : Word) (s : State) : WriteEffect v s (registerWrite offset v s) := by
  unfold registerWrite
  split
  · exact .ctrl
  · exact .status
  · exact .pc
  · exact .ignored

theorem hostWrite_effect (addr v : Word) (s : State) : WriteEffect v s (hostWrite addr v s) := by
  cases htarget : hostTarget addr with
  | register offset => exact hostWrite_register htarget v s ▸ registerWrite_effect offset v s
  | reserved => exact (hostWrite_reserved htarget v s).symm ▸ .ignored
  | imem i =>
    cases hbusy : s.busy with
    | true => exact (hostWrite_closed hbusy (.inl ⟨i, htarget⟩) v).symm ▸ .ignored
    | false =>
      rw [hostWrite_imem hbusy htarget]
      split
      · exact .imem i ‹_›
      · exact .ignored
  | dmem a =>
    cases hbusy : s.busy with
    | true => exact (hostWrite_closed hbusy (.inr ⟨a, htarget⟩) v).symm ▸ .ignored
    | false =>
      rw [hostWrite_dmem hbusy htarget]
      split
      · exact .dmem a ‹_› (hostTarget_dmem_aligned htarget)
      · exact .ignored

end Sys2Proof.Machine
end

section
/-! SUPPORT. The invariant of Safety.lean (10_state.md R105, R132, R134, 60_exceptions.md R800) at reset and under every
update: of the engine, the host and the platform. -/

namespace Sys2Proof.Machine

/-! ## The invariant at reset -/

theorem inv_resetWith {c : Config} (hc : c.valid) : Inv (State.resetWith c) where
  cfgValid := hc
  lengths r := by rw [State.B_resetWith]; exact Nat.zero_le _
  imemForm := (resetWith_memory_wf c).2
  imemBound := nofun
  dmemForm := (resetWith_memory_wf c).1
  dmemBound := nofun
  notDoneAndErr := nofun
  busyMeansClear := nofun
  causeProduced := Nat.zero_le 7
  causeZero _ := rfl
  causeNonzero := nofun

theorem Inv.powerOn {s : State} (h : Inv s) : Inv s.powerOn := { inv_resetWith h.cfgValid with }

/-! ## The invariant under each update -/

/-- The codes of R800 are 1 to 7. -/
theorem Exn.code_range (e : Exn) : e.code.toNat ≤ 7 ∧ e.code ≠ 0#4 := by
  cases e <;> decide

section
variable {s : State} (h : Inv s)
include h

/-- Neither the schedule nor the replies nor the count of reads enter the invariant. -/
theorem Inv.withSchedule (es : List Event) : Inv { s with schedule := es } := { h with }

theorem Inv.hostRead (addr : Word) : Inv (hostRead addr s) := { h with }

theorem Inv.advance : Inv s.advance := { h with }

theorem Inv.setS (d : SReg) (v : Word) : Inv (s.setS d v) := { h with }

theorem Inv.setFlag (b : Bool) : Inv (s.setFlag b) := { h with }

theorem Inv.setB (d : BReg) {x : ByteString} (hx : x.length ≤ s.cfg.bnMaxBytes) : Inv (s.setB d x) :=
  { h with
    lengths := fun r => by
      by_cases hr : r = d
      · simpa [hr] using hx
      · simpa [State.B_setB_ne s x hr] using h.lengths r }

theorem Inv.memWrite {addr : Nat} {x : ByteString} (hin : addr + x.length ≤ s.cfg.dmemBytes) :
    Inv (s.memWrite addr x) :=
  { h with
    dmemForm := memWrite_wf s addr x h.dmemForm
    dmemBound := fun c hc => (writeCells_mem hc).elim (fun hrange => hrange.2.trans_le hin) (h.dmemBound c) }

theorem Inv.setImemWord {i : Nat} (hi : i < s.cfg.imemWords) (w : Word) : Inv (s.setImemWord i w) :=
  { h with
    imemForm := setImemWord_wf s i w h.imemForm
    imemBound := fun c hc => (cellSet_mem hc).elim (fun heq => heq ▸ hi) (h.imemBound c) }

/-- START clears the register files, STATUS and CAUSE (R133). -/
theorem Inv.startRun : Inv s.startRun :=
  { h with
    lengths := fun r => by simp
    notDoneAndErr := nofun
    busyMeansClear := fun _ => ⟨rfl, rfl⟩
    causeProduced := Nat.zero_le 7
    causeZero := fun _ => rfl
    causeNonzero := nofun }

/-- A run has DONE and ERR clear and CAUSE zero, so HALT leaves DONE alone set (R562). -/
theorem Inv.halted (hbusy : s.busy = true) : Inv { s with busy := false, done := true } := by
  obtain ⟨-, herr⟩ := h.busyMeansClear hbusy
  exact { h with
    notDoneAndErr := fun ⟨_, he⟩ => absurd (he.symm.trans herr) nofun
    busyMeansClear := nofun
    causeZero := fun _ => h.causeZero (.inl hbusy) }

/-- A run has DONE clear, so an exception leaves ERR alone set, with a code of R800 (R806). -/
theorem Inv.trapped (hbusy : s.busy = true) (e : Exn) : Inv (s.trapped e) := by
  obtain ⟨hdone, -⟩ := h.busyMeansClear hbusy
  exact { h with
    notDoneAndErr := fun ⟨hd, _⟩ => absurd (hd.symm.trans hdone) nofun
    busyMeansClear := nofun
    causeProduced := e.code_range.1
    causeZero := fun hd => absurd ((hd.resolve_left nofun).symm.trans hdone) nofun
    causeNonzero := fun _ => e.code_range.2 }

/-- Clearing DONE or ERR needs no other bit to change (R132). -/
theorem Inv.statusWrite (v : Word) : Inv (statusWrite v s) := by
  have done_of {b : Bool} (hd : (s.done && b) = true) : s.done = true := (Bool.and_eq_true_iff.1 hd).1
  have err_of {b : Bool} (he : (s.err && b) = true) : s.err = true := (Bool.and_eq_true_iff.1 he).1
  exact { h with
    notDoneAndErr := fun ⟨hd, he⟩ => h.notDoneAndErr ⟨done_of hd, err_of he⟩
    busyMeansClear := fun hb => by
      obtain ⟨hd, he⟩ := h.busyMeansClear hb
      simp [Machine.statusWrite, hd, he]
    causeZero := fun hd => h.causeZero (hd.imp_right done_of)
    causeNonzero := fun he => h.causeNonzero (err_of he) }

theorem Inv.ctrlWrite (v : Word) : Inv (ctrlWrite v s) := by
  have henable : Inv { s with irqEn := v.getLsbD 1 } := { h with }
  unfold Machine.ctrlWrite
  dsimp only
  split
  · exact henable.startRun
  · exact henable

theorem Inv.pcWrite (v : Word) : Inv (pcWrite v s) := by
  unfold Machine.pcWrite
  split
  · exact h
  · exact { h with }

/-- A word at a word address below DMEM_BYTES ends within DMEM, because DMEM_BYTES is a multiple of 4 (R8, R213). -/
theorem Inv.word_fits {a : Nat} (ha : a < s.cfg.dmemBytes) (hword : a % 4 = 0) : a + 4 ≤ s.cfg.dmemBytes := by
  obtain ⟨_, ⟨_, _, hmul⟩, _⟩ := h.cfgValid
  omega

theorem Inv.writeEffect {v : Word} {t : State} (ht : WriteEffect v s t) : Inv t := by
  cases ht with
  | ignored => exact h
  | ctrl => exact h.ctrlWrite v
  | status => exact h.statusWrite v
  | pc => exact h.pcWrite v
  | imem i hi => exact h.setImemWord hi v
  | dmem a ha hword => exact h.memWrite (by simpa using h.word_fits ha hword)

theorem Inv.hostWrite (addr v : Word) : Inv (hostWrite addr v s) := h.writeEffect (hostWrite_effect addr v s)

variable {t : State} (hbusy : s.busy = true)
include hbusy

theorem Inv.exec {i : Instr} (ht : exec i s = .next t) : Inv t := by
  cases exec_effect ht with
  | scalar d v => exact (h.setS d v).advance
  | bignum d x _ _ _ _ _ hx => exact (h.setB d (hx h.lengths)).advance
  | bignums d x d' x' _ _ _ _ _ hx =>
    obtain ⟨hfirst, hsecond⟩ := hx h.lengths
    exact ((h.setB d hfirst).setB d' hsecond).advance
  | flag b => exact (h.setFlag b).advance
  | store addr x _ _ _ _ _ hin => exact (h.memWrite hin).advance
  | halt => exact h.halted hbusy
  | raised e => exact h.trapped hbusy e

theorem Inv.engineStep (ht : engineStep s = .next t) : Inv t := by
  rcases engineStep_cases s with ⟨_, hs⟩ | ⟨_, _, _, hs⟩ | ⟨_, i, _, hs⟩
  · exact raise_next.1 (hs.symm.trans ht) ▸ h.trapped hbusy _
  · exact raise_next.1 (hs.symm.trans ht) ▸ h.trapped hbusy _
  · exact h.exec hbusy (hs.symm.trans ht)

end

/-! ## The invariant under a step -/

section
variable {s t : State} (h : Inv s)
include h

theorem Inv.engineTurn (ht : engineTurn s = .next t) : Inv t := by
  cases hbusy : s.busy with
  | true => exact h.engineStep hbusy ((engineTurn_busy hbusy).symm.trans ht)
  | false =>
    obtain rfl : s = t := by simpa [engineTurn_idle hbusy] using ht
    exact h

theorem Inv.runEvent {e : Event} (ht : runEvent e s = .next t) : Inv t := by
  cases e with
  | engine => exact h.engineTurn ht
  | hostRead addr => cases ht; exact h.hostRead addr
  | hostWrite addr v => cases ht; exact h.hostWrite addr v
  | reset => cases ht; exact h.powerOn

theorem Inv.step (ht : step s = .next t) : Inv t := by
  cases hs : s.schedule with
  | nil => exact h.engineTurn ((step_alone hs).symm.trans ht)
  | cons e es => exact (h.withSchedule es).runEvent ((step_event hs).symm.trans ht)

end

end Sys2Proof.Machine
end

section
/-! SUPPORT. Runs of several steps: the bound on a run the engine makes alone (20_memory.md R216), and why the registers of
an idle engine never reach the host (10_state.md R103, R107, R133). -/

namespace Sys2Proof.Machine

/-- The first step of a run, then the rest. -/
theorem run_succ {s t : State} (h : step s = .next t) (k : Nat) :
    Host.Core.run core (k + 1) s = Host.Core.run core k t := by
  have hcore : core.step s = .next t := h
  simp only [Host.Core.run, hcore]

/-! ## The length of a run (R216) -/

/-- A step of a run the engine makes alone ends the run, or goes on to the next index, from inside IMEM. -/
theorem running_step {s : State} (hcfg : s.cfg.valid) (hbusy : s.busy = true) (halone : s.schedule = []) :
    ∃ t, step s = .next t ∧ (Ends s t ∨
      (s.pc.toNat < s.cfg.imemWords ∧ t.pc.toNat = s.pc.toNat + 1 ∧ t.busy = true ∧ SameSystem s t)) := by
  obtain ⟨t, ht⟩ := engineStep_hasNext s
  refine ⟨t, (step_engineNext_busy (.inl ⟨halone, rfl⟩) hbusy).trans ht, ?_⟩
  rcases engineStep_advances_or_ends ht with ⟨hpc, hgoes, hnext⟩ | hends
  · exact .inr ⟨hpc, hnext ▸ pc_succ_toNat hcfg hpc, hgoes.trans hbusy, engineStep_sameSystem ht⟩
  · exact .inl hends

/-- With n words of IMEM from PC on, at most n commands complete before a step ends the run. -/
theorem run_ends {n : Nat} {s : State} (hcfg : s.cfg.valid) (hbusy : s.busy = true) (halone : s.schedule = [])
    (hn : s.cfg.imemWords ≤ s.pc.toNat + n) : ∃ k, k ≤ n + 1 ∧ ∃ t : State,
      Host.Core.run core k s = .next t ∧ t.busy = false ∧ (t.done = true ∨ t.err = true) := by
  induction n generalizing s with
  | zero =>
    obtain ⟨t, ht, ⟨hidle, _, hend⟩ | ⟨hpc, _⟩⟩ := running_step hcfg hbusy halone
    · exact ⟨1, le_rfl, t, run_succ ht 0, hidle, hend⟩
    · omega
  | succ n ih =>
    obtain ⟨t, ht, ⟨hidle, _, hend⟩ | ⟨_, hpc, hgoes, hsystem⟩⟩ := running_step hcfg hbusy halone
    · exact ⟨1, by omega, t, run_succ ht 0, hidle, hend⟩
    · have hleft : t.cfg.imemWords ≤ t.pc.toNat + n := by rw [hsystem.cfg]; omega
      obtain ⟨k, hk, u, hu, hend⟩ := ih (hsystem.cfg ▸ hcfg) hgoes (hsystem.schedule.trans halone) hleft
      exact ⟨k + 1, Nat.succ_le_succ hk, u, (run_succ ht k).trans hu, hend⟩

/-! ## The registers of an idle engine (R103, R107, R133) -/

/-- The same state with other register files and F. -/
def State.withRegisters (s : State) (x : Vector Word 16) (y : Vector ByteString 16) (f : Bool) : State :=
  { s with sreg := x, breg := y, flag := f }

/-- The states are the same, or both idle and the same up to the register files and F. -/
inductive AlikeWhileIdle (s : State) : State → Prop where
  | same : AlikeWhileIdle s s
  | idle (x : Vector Word 16) (y : Vector ByteString 16) (f : Bool) (hidle : s.busy = false) :
    AlikeWhileIdle s (s.withRegisters x y f)

theorem alike_ite {p : Prop} [Decidable p] {s s' t t' : State} (hs : AlikeWhileIdle s s') (ht : AlikeWhileIdle t t') :
    AlikeWhileIdle (if p then s else t) (if p then s' else t') := by
  split
  · exact hs
  · exact ht

section
variable {s : State} (x : Vector Word 16) (y : Vector ByteString 16) (f : Bool)

/-- No host read looks at the register files or F. -/
theorem hostReadValue_withRegisters (addr : Word) : hostReadValue (s.withRegisters x y f) addr = hostReadValue s addr :=
  rfl

variable (hidle : s.busy = false)
include hidle

/-- START, the one write of CTRL that does more than set IRQ_EN, clears both register files and F (R133). -/
theorem ctrlWrite_alike (v : Word) : AlikeWhileIdle (ctrlWrite v s) (ctrlWrite v (s.withRegisters x y f)) := by
  cases hv : v.getLsbD 0 with
  | true =>
    rw [ctrlWrite_start hidle hv, ctrlWrite_start (s := s.withRegisters x y f) hidle hv]
    exact .same
  | false =>
    rw [ctrlWrite_noStart (.inr hv), ctrlWrite_noStart (.inr hv)]
    exact .idle x y f hidle

theorem registerWrite_alike (offset : Nat) (v : Word) :
    AlikeWhileIdle (registerWrite offset v s) (registerWrite offset v (s.withRegisters x y f)) := by
  unfold registerWrite
  split
  · exact ctrlWrite_alike x y f hidle v
  · exact .idle x y f hidle
  · rw [pcWrite_idle hidle, pcWrite_idle (s := s.withRegisters x y f) hidle]
    exact .idle x y f hidle
  · exact .idle x y f hidle

theorem hostWrite_alike (addr v : Word) :
    AlikeWhileIdle (hostWrite addr v s) (hostWrite addr v (s.withRegisters x y f)) := by
  cases htarget : hostTarget addr with
  | register offset =>
    rw [hostWrite_register htarget, hostWrite_register htarget]
    exact registerWrite_alike x y f hidle offset v
  | reserved =>
    rw [hostWrite_reserved htarget, hostWrite_reserved htarget]
    exact .idle x y f hidle
  | imem i =>
    rw [hostWrite_imem hidle htarget, hostWrite_imem (s := s.withRegisters x y f) hidle htarget]
    exact alike_ite (.idle x y f hidle) (.idle x y f hidle)
  | dmem a =>
    rw [hostWrite_dmem hidle htarget, hostWrite_dmem (s := s.withRegisters x y f) hidle htarget]
    exact alike_ite (.idle x y f hidle) (.idle x y f hidle)

/-- One event: the idle engine rests, a read answers alike, and reset clears the registers. -/
theorem runEvent_alike (e : Event) : ∃ t t', runEvent e s = .next t ∧
    runEvent e (s.withRegisters x y f) = .next t' ∧ AlikeWhileIdle t t' := by
  cases e with
  | engine => exact ⟨s, _, engineTurn_idle hidle, engineTurn_idle hidle, .idle x y f hidle⟩
  | hostRead addr => exact ⟨_, _, rfl, rfl, .idle x y f hidle⟩
  | hostWrite addr v => exact ⟨_, _, rfl, rfl, hostWrite_alike x y f hidle addr v⟩
  | reset => exact ⟨_, _, rfl, rfl, .same⟩

end

/-- States that are alike while idle stay so under every step. -/
theorem step_alike {s s' : State} (h : AlikeWhileIdle s s') :
    ∃ t t', step s = .next t ∧ step s' = .next t' ∧ AlikeWhileIdle t t' := by
  cases h with
  | same =>
    obtain ⟨t, ht⟩ := step_hasNext s
    exact ⟨t, t, ht, ht, .same⟩
  | idle x y f hidle =>
    cases hs : s.schedule with
    | nil =>
      exact ⟨s, s.withRegisters x y f, (step_alone hs).trans (engineTurn_idle hidle),
        (step_alone (s := s.withRegisters x y f) hs).trans (engineTurn_idle hidle), .idle x y f hidle⟩
    | cons e es =>
      rw [step_event hs, step_event (s := s.withRegisters x y f) hs]
      exact runEvent_alike (s := { s with schedule := es }) x y f hidle e

theorem run_alike {n : Nat} {s s' t t' : State} (h : AlikeWhileIdle s s') (ht : Host.Core.run core n s = .next t)
    (ht' : Host.Core.run core n s' = .next t') : AlikeWhileIdle t t' := by
  induction n generalizing s s' with
  | zero => cases ht; cases ht'; exact h
  | succ n ih =>
    obtain ⟨u, u', hu, hu', halike⟩ := step_alike h
    rw [run_succ hu] at ht
    rw [run_succ hu'] at ht'
    exact ih halike ht ht'

end Sys2Proof.Machine
end

section
/-! SUPPORT. The restoring dividers (42_scalar.md R506, 45_bignum_arith.md R657): the rounds for bits i-1 down to 0 divide
the remainder so far, with those bits of the dividend after it. -/

namespace Sys2Proof.Machine

/-- What a round shifts in completes the dividend's low bits. -/
theorem shift_in_bit (a i r : Nat) : (2 * r + a / 2 ^ i % 2) * 2 ^ i + a % 2 ^ i = r * 2 ^ (i + 1) + a % 2 ^ (i + 1) := by
  rw [Nat.mod_pow_succ]
  ring

/-! ## One round -/

section
variable {a b i r : Nat} (q : Nat)

theorem bdivLoop_succ_of_ge (h : 2 * r + a / 2 ^ i % 2 ≥ b) :
    bdivLoop a b (i + 1) q r = bdivLoop a b i (q + 2 ^ i) (2 * r + a / 2 ^ i % 2 - b) := by
  simp [bdivLoop, h]

theorem bdivLoop_succ_of_lt (h : ¬ 2 * r + a / 2 ^ i % 2 ≥ b) :
    bdivLoop a b (i + 1) q r = bdivLoop a b i q (2 * r + a / 2 ^ i % 2) := by
  simp [bdivLoop, h]

theorem sdivLoop_succ_of_ge (h : 2 * r + a / 2 ^ i % 2 ≥ b) :
    sdivLoop a b (i + 1) q r = sdivLoop a b i (q ||| 1 <<< i) (2 * r + a / 2 ^ i % 2 - b) := by
  simp [sdivLoop, h]

theorem sdivLoop_succ_of_lt (h : ¬ 2 * r + a / 2 ^ i % 2 ≥ b) :
    sdivLoop a b (i + 1) q r = sdivLoop a b i q (2 * r + a / 2 ^ i % 2) := by
  simp [sdivLoop, h]

end

/-! ## All rounds -/

/-- The rounds left give the quotient bits and the remainder of `r * 2^i + a mod 2^i`. -/
theorem bdivLoop_eq {a b i q r : Nat} (hr : r < b) : bdivLoop a b i q r =
    (q + (r * 2 ^ i + a % 2 ^ i) / b, (r * 2 ^ i + a % 2 ^ i) % b) := by
  induction i generalizing q r with
  | zero => simp [bdivLoop, Nat.mod_one, Nat.div_eq_of_lt hr, Nat.mod_eq_of_lt hr]
  | succ i ih =>
    by_cases hge : 2 * r + a / 2 ^ i % 2 ≥ b
    · have hsplit : r * 2 ^ (i + 1) + a % 2 ^ (i + 1) =
          (2 * r + a / 2 ^ i % 2 - b) * 2 ^ i + a % 2 ^ i + b * 2 ^ i := by
        have hle : b * 2 ^ i ≤ (2 * r + a / 2 ^ i % 2) * 2 ^ i := Nat.mul_le_mul_right _ hge
        rw [← shift_in_bit, Nat.sub_mul]
        omega
      rw [bdivLoop_succ_of_ge q hge, ih (by omega), hsplit, Nat.add_mul_div_left _ _ (Nat.zero_lt_of_lt hr),
        Nat.add_mul_mod_self_left, Nat.add_assoc, Nat.add_comm (2 ^ i)]
    · rw [bdivLoop_succ_of_lt q hge, ih (Nat.lt_of_not_ge hge), shift_in_bit]

/-- With only bits from i on set in the quotient so far, OR is addition, and the two loops are the same. -/
theorem sdivLoop_eq_bdivLoop (a b i c r : Nat) : sdivLoop a b i (2 ^ i * c) r = bdivLoop a b i (2 ^ i * c) r := by
  induction i generalizing c r with
  | zero => rfl
  | succ i ih =>
    by_cases hge : 2 * r + a / 2 ^ i % 2 ≥ b
    · have hadd : 2 ^ (i + 1) * c + 2 ^ i = 2 ^ i * (2 * c + 1) := by ring
      have hor : 2 ^ (i + 1) * c ||| 1 <<< i = 2 ^ (i + 1) * c + 2 ^ i := by
        rw [Nat.one_shiftLeft, Nat.two_pow_add_eq_or_of_lt (Nat.pow_lt_pow_succ (by decide))]
      rw [sdivLoop_succ_of_ge _ hge, bdivLoop_succ_of_ge _ hge, hor, hadd, ih]
    · have hshift : 2 ^ (i + 1) * c = 2 ^ i * (2 * c) := by ring
      rw [sdivLoop_succ_of_lt _ hge, bdivLoop_succ_of_lt _ hge, hshift, ih]

theorem bdivLoop_of_lt {a b i : Nat} (ha : a < 2 ^ i) (hb : b ≠ 0) : bdivLoop a b i 0 0 = (a / b, a % b) := by
  rw [bdivLoop_eq (Nat.pos_of_ne_zero hb), Nat.mod_eq_of_lt ha, Nat.zero_mul, Nat.zero_add, Nat.zero_add]

end Sys2Proof.Machine
end

section
/-! SUPPORT. The proofs of the obligations on the encoding round trips, the step and its invariant, runs, the host port and
the dividers. -/

namespace Sys2Proof.Machine

/-! ## Encoding (30_encoding.md) -/

/-- Settles O2: the opcode leads to the command's own row, and that row reads back each operand. -/
theorem decodeOfEncodeIsTheCommand : Obligations.DecodeOfEncodeIsTheCommand := by
  unfold Obligations.DecodeOfEncodeIsTheCommand
  exact fun _ => decode_encode

/-- Settles O3: the row's checks leave no bit of the word outside the opcode and the operand fields. -/
theorem decodedWordIsItsEncoding : Obligations.DecodedWordIsItsEncoding := by
  unfold Obligations.DecodedWordIsItsEncoding
  exact fun _ _ => encode_of_decode

/-- Settles O6: LIL leaves bits 15:0 alone in the register and LIH puts bits 31:16 above them. -/
theorem loadImmediatePair : Obligations.LoadImmediatePair := by
  unfold Obligations.LoadImmediatePair
  intro d v s
  obtain ⟨t, ht, low⟩ := writeS_spec d ((v.extractLsb' 0 16).setWidth 32) s
  obtain ⟨t', ht', high⟩ := writeS_spec d ((v.extractLsb' 16 16).setWidth 32 <<< 16 ||| (t.S d &&& 0x0000FFFF#32)) t
  refine ⟨rfl, t, t', ht, ht', ?_, fun r hr => (high.scalars r hr).trans (low.scalars r hr),
    fun r => (high.bignums r).trans (low.bignums r), high.flag.trans low.flag,
    fun a => (high.memory a).trans (low.memory a)⟩
  rw [high.value, low.value, highHalf_or_lowHalf]
  have hv := v.isLt
  apply BitVec.eq_of_toNat_eq
  simp [Nat.shiftRight_eq_div_pow]
  omega

/-! ## The step and its runs (10_state.md, 20_memory.md, 60_exceptions.md) -/

/-- Settles O7: on a running state the engine's turn is its step, which runs what the fetched word decodes to; taking the
event off the schedule changes neither the word nor PC. -/
theorem stepRunsTheDecodedCommand : Obligations.StepRunsTheDecodedCommand := by
  unfold Obligations.StepRunsTheDecodedCommand
  intro s i hbusy hpc hd
  have turn (s₀ : State) (hnext : EngineNext s s₀) (h : s₀.busy = true) (hpc : s₀.pc.toNat < s₀.cfg.imemWords)
      (hd : decode (s₀.imemWord s₀.pc.toNat) = .ok i) : step s = exec i s₀ :=
    (step_engineNext_busy hnext h).trans (engineStep_decoded hpc hd)
  exact ⟨fun h => turn s (.inl ⟨h, rfl⟩) hbusy hpc hd, fun es h => turn _ (.inr ⟨es, h, rfl⟩) hbusy hpc hd⟩

/-- Settles O9, by the event at the head of the schedule. -/
theorem scheduleDecidesWhoActs : Obligations.ScheduleDecidesWhoActs := by
  unfold Obligations.ScheduleDecidesWhoActs
  exact fun s => ⟨fun hidle h => (step_alone h).trans (engineTurn_idle hidle),
    fun es hidle h => (step_event h).trans (engineTurn_idle (s := { s with schedule := es }) hidle),
    fun _ _ _ h => step_event h, fun _ _ h => step_event h, fun _ h => step_event h⟩

/-- Settles O12, by the command's kind of effect. -/
theorem commandsChangeOnlyTheirDestinations : Obligations.CommandsChangeOnlyTheirDestinations := by
  unfold Obligations.CommandsChangeOnlyTheirDestinations
  exact fun i s t h => ⟨fun _ => exec_scalars h, fun _ => exec_bignums h, exec_keeps_flag h, exec_memory h,
    fun _ _ => exec_memoryOutside h, exec_sameSystem h⟩

/-- Settles O14: every command ends in a write or an exception, and every event in a command, a transaction or reset. -/
theorem everyStepAnswersANextState : Obligations.EveryStepAnswersANextState := by
  unfold Obligations.EveryStepAnswersANextState
  exact ⟨exec_hasNext, step_hasNext⟩

/-- Settles O15: after reset everything the invariant bounds is empty or zero, and E0 is within the ranges. -/
theorem invariantAtReset : Obligations.InvariantAtReset := by
  unfold Obligations.InvariantAtReset
  exact ⟨fun _ => inv_resetWith, rfl, inv_resetWith (by decide)⟩

/-- Settles O16, by the event that acts and the update it makes. -/
theorem everyStepKeepsTheInvariant : Obligations.EveryStepKeepsTheInvariant := by
  unfold Obligations.EveryStepKeepsTheInvariant
  exact fun _ _ => Inv.step

/-- Settles O17: at most IMEM_WORDS commands complete, wherever the run begins, and one more step ends it. -/
theorem everyRunEnds : Obligations.EveryRunEnds := by
  unfold Obligations.EveryRunEnds
  exact fun s hcfg hbusy halone => run_ends hcfg hbusy halone (Nat.le_add_left ..)

/-! ## The host port (10_state.md, 20_memory.md) -/

/-- Settles O21: a STATUS write clears bits alone, and both it and START can leave DONE and ERR clear. -/
theorem statusRegister : Obligations.StatusRegister := by
  unfold Obligations.StatusRegister
  intro s v
  have hwrite : hostWrite 0x00C v s =
      { s with done := if v.getLsbD 1 then false else s.done, err := if v.getLsbD 2 then false else s.err } :=
    (hostWrite_status v s).trans (statusWrite_eq v s)
  refine ⟨statusWord_toNat s, hwrite, irq_eq_true_iff s, fun hdone herr => ?_, fun hidle hstart => ?_⟩
  · have cleared {b c : Bool} (h : b = true → c = true) : (if c then false else b) = false := by
      cases b <;> simp_all
    rw [hwrite]
    exact irq_eq_false (cleared hdone) (cleared herr)
  · have hctrl : hostWrite 0x008 v s = { s with irqEn := v.getLsbD 1 }.startRun := ctrlWrite_start hidle hstart
    rw [hctrl]
    exact irq_eq_false rfl rfl

/-- Settles O24: both windows are closed during a run, and a read changes the count of reads and the replies alone. -/
theorem windowsClosedDuringARun : Obligations.WindowsClosedDuringARun := by
  unfold Obligations.WindowsClosedDuringARun
  refine ⟨fun s addr v hbusy haddr => window_closed hbusy ?_ v, fun _ _ => rfl⟩
  rcases haddr with ⟨hlow, hhigh⟩ | ⟨hlow, hhigh⟩
  · exact .inl ⟨_, hostTarget_imem hlow hhigh⟩
  · exact .inr ⟨_, hostTarget_dmem hlow hhigh⟩

/-- Settles O25: the address names the DMEM word at a, which a write stores with bits 31:24 at the lowest address. -/
theorem dmemWindow : Obligations.DmemWindow := by
  unfold Obligations.DmemWindow
  intro s a v hword ha addr
  have htarget : hostTarget addr = .dmem a := hostTarget_dmemWord hword ha
  refine ⟨fun hidle hin => ?_, fun hidle hout => ?_, fun hbusy => window_closed hbusy (.inr ⟨a, htarget⟩) v⟩
  · have hwrite : hostWrite addr v s = s.memWrite a (wordBytes v) := by
      rw [hostWrite_dmem hidle htarget, if_pos hin]
    rw [hostReadValue_dmem hidle htarget, if_pos hin, hwrite]
    refine ⟨toNat_bytesWord_memRead_four s a, fun k hk => ?_, fun b hb => ?_, rfl⟩
    · exact (dmemByte_memWrite_inside s a (wordBytes v) k (by simpa using hk)).trans (wordBytes_getElem v hk)
    · exact dmemByte_memWrite_outside s (wordBytes v) (by simpa using hb)
  · exact ⟨(hostReadValue_dmem hidle htarget).trans (if_neg (Nat.not_lt.2 hout)),
      (hostWrite_dmem hidle htarget v).trans (if_neg (Nat.not_lt.2 hout))⟩

/-- Settles O26: the address names IMEM word i, which a write sets whole and the fetch reads whole. -/
theorem imemWindow : Obligations.ImemWindow := by
  unfold Obligations.ImemWindow
  intro s i v hi addr
  have htarget : hostTarget addr = .imem i := hostTarget_imemWord hi
  refine ⟨fun hidle hin => ?_, fun hidle hout => ?_, fun hbusy => window_closed hbusy (.inl ⟨i, htarget⟩) v⟩
  · have hwrite : hostWrite addr v s = s.setImemWord i v := by
      rw [hostWrite_imem hidle htarget, if_pos hin]
    rw [hostReadValue_imem hidle htarget, if_pos hin, hwrite]
    refine ⟨rfl, imemWord_setImemWord_same s i v, fun j hj => imemWord_setImemWord_ne s v hj, rfl, fun hpc => ?_⟩
    subst hpc
    exact fetch_eq_some.2 ⟨hin, imemWord_setImemWord_same ..⟩
  · exact ⟨(hostReadValue_imem hidle htarget).trans (if_neg (Nat.not_lt.2 hout)),
      (hostWrite_imem hidle htarget v).trans (if_neg (Nat.not_lt.2 hout))⟩

/-- Settles O27: all three read the same four bytes, and the word SLD makes of them has them as its bytes. -/
theorem oneByteOrderEverywhere : Obligations.OneByteOrderEverywhere := by
  unfold Obligations.OneByteOrderEverywhere
  intro s d x a n hcfg hcap hlen hword hmem
  obtain ⟨t, ht, hscalar⟩ := writeS_spec d (bytesWord (s.memRead (s.S a).toNat 4)) s
  obtain ⟨t', ht', hbignum⟩ := writeB_spec x (s.memRead (s.S a).toNat 4) s
  have hsld : exec (.sld d a) s = .next t := (requireDmem_pos hmem _).trans ht
  have hbld : exec (.bld x a n) s = .next t' := by
    simp only [exec, execBld, hlen]
    rw [requireCapacity_pos hcap, requireDmem_pos hmem, ht']
  refine ⟨_, t, t', hsld, hscalar.value, hbld, ?_, fun h hidle hsame hmemory => ?_⟩
  · exact hbignum.value.trans (wordBytes_bytesWord (memRead_length ..)).symm
  · obtain ⟨_, ⟨_, hmax, _⟩, _⟩ := hcfg
    have htarget := hostTarget_dmemWord hword (show (s.S a).toNat < 0x100000 by omega)
    have hin : (s.S a).toNat < h.cfg.dmemBytes := by rw [hsame]; omega
    rw [hostReadValue_dmem hidle htarget, if_pos hin, memRead_congr hmemory]

/-- Settles O28: the two runs stay alike, and nothing the host sees is a register of an idle engine. -/
theorem idleRegistersNeverReachTheHost : Obligations.IdleRegistersNeverReachTheHost := by
  unfold Obligations.IdleRegistersNeverReachTheHost
  intro s x y f n t t' hidle ht ht'
  cases run_alike (.idle x y f hidle) ht ht' with
  | same | idle => exact ⟨rfl, fun _ => rfl, fun _ => rfl, rfl, ⟨rfl, rfl, rfl, rfl⟩, rfl⟩

/-! ## Arithmetic (42_scalar.md, 45_bignum_arith.md) -/

/-- Settles O54: the dividend has no more bits than there are rounds, and R506's loop is R657's. -/
theorem dividerRoundsGiveTheQuotient : Obligations.DividerRoundsGiveTheQuotient := by
  unfold Obligations.DividerRoundsGiveTheQuotient
  refine ⟨fun a b ha hb => ?_, fun a b hb => bdivLoop_of_lt (val_lt_longer a b).1 hb⟩
  calc sdivmod a b = bdivLoop a b 32 0 0 := sdivLoop_eq_bdivLoop a b 32 0 0
    _ = (a / b, a % b) := bdivLoop_of_lt ha hb

end Sys2Proof.Machine
end
